-- ==== Sys2Proof/Word.lean ====
section
/-! DEFINITION. The word types of the machine: a memory word and the 16-bit registers, a 12-bit word address,
an 8-bit character (spec/00_scope.md R6). -/

namespace Sys2Proof

/-- WORD: a memory word, and the width of IR, AC, DR, MAR and TR (R6). -/
abbrev Word := BitVec 16

/-- ADDR: the width of PC, AR and the address field of an instruction (R6). -/
abbrev Addr := BitVec 12

/-- IOW: the width of INPR and OUTR (R6). -/
abbrev Byte := BitVec 8

end Sys2Proof
end

