-- ==== Sys2Proof/Syntax.lean ====
section
/-! DEFINITION. The instructions: one constructor for each row of spec/opcode_table.json. -/

namespace Sys2Proof

/-- The 25 instructions of spec/30_encoding.md R85 and the row of the unassigned opcode-7 words (R87). A
memory-reference instruction carries its indirect bit (bit 15) and its address field (bits 11:0), R82. -/
inductive Instr where
  | and (ind : Bool) (adr : Addr)
  | add (ind : Bool) (adr : Addr)
  | lda (ind : Bool) (adr : Addr)
  | sta (ind : Bool) (adr : Addr)
  | bun (ind : Bool) (adr : Addr)
  | bsa (ind : Bool) (adr : Addr)
  | isz (ind : Bool) (adr : Addr)
  | cla
  | cle
  | cma
  | cme
  | cir
  | cil
  | inc
  | spa
  | sna
  | sza
  | sze
  | hlt
  | inp
  | out
  | ski
  | sko
  | ion
  | iof
  /-- An opcode-7 word that is none of the 18 patterns of R85: bit 15 and the low 12 bits. -/
  | unassigned (group : Bool) (low : Addr)
deriving DecidableEq, Repr

end Sys2Proof
end

