-- ==== Sys2Proof/WellFormed.lean ====
section
/-! DEFINITION. Which terms of `Instr` are instructions of the machine. The only check is that an unassigned
opcode-7 word is none of the 18 assigned ones (spec/30_encoding.md R85, R87): every address and both
addressing modes are valid for the memory-reference instructions (R82). -/

namespace Sys2Proof

/-- The low twelve bits of the twelve register-reference words, CLA first (R85). -/
def registerPatterns : List Addr :=
  [0x800, 0x400, 0x200, 0x100, 0x080, 0x040, 0x020, 0x010, 0x008, 0x004, 0x002, 0x001]

/-- The low twelve bits of the six input/output words, INP first (R85). -/
def ioPatterns : List Addr := [0x800, 0x400, 0x200, 0x100, 0x080, 0x040]

/-- Is the opcode-7 word with this bit 15 and these low bits one of the 18 assigned words? -/
def assigned (group : Bool) (low : Addr) : Bool :=
  if group then ioPatterns.contains low else registerPatterns.contains low

/-- The instruction is one that some word of the machine stands for. -/
def Instr.wf : Instr → Bool
  | .unassigned group low => !assigned group low
  | .and _ _ | .add _ _ | .lda _ _ | .sta _ _ | .bun _ _ | .bsa _ _ | .isz _ _ => true
  | .cla | .cle | .cma | .cme | .cir | .cil | .inc | .spa | .sna | .sza | .sze | .hlt => true
  | .inp | .out | .ski | .sko | .ion | .iof => true

end Sys2Proof
end

