-- ==== Sys2Proof/Decode.lean ====
section
/-! DEFINITION. Decoding a word to an instruction (spec/30_encoding.md R81, R86) and, after it, encoding an
instruction to its word (R82, R83, R85). The decoder is total: every word is an instruction (R86). -/

namespace Sys2Proof

/-- Bit 15 of an instruction word: `I` (R81). -/
def indirectBit (w : Word) : Bool := w.getLsbD 15

/-- Bits 14:12 of an instruction word: the opcode (R81). -/
def opcodeField (w : Word) : BitVec 3 := w.extractLsb' 12 3

/-- Bits 11:0 of a word: the address field of an instruction, and the part of a pointer word that is used (R81, R84). -/
def addressField (w : Word) : Addr := w.extractLsb' 0 12

/-- One row of the exact-match table of R85. -/
structure FixedRow where
  mnemonic : List Char
  word : Word
  instr : Instr
deriving DecidableEq, Repr

/-- The 18 fixed patterns (R85). -/
def fixedRows : List FixedRow :=
  [ ⟨['C', 'L', 'A'], 0x7800, .cla⟩, ⟨['C', 'L', 'E'], 0x7400, .cle⟩, ⟨['C', 'M', 'A'], 0x7200, .cma⟩,
    ⟨['C', 'M', 'E'], 0x7100, .cme⟩, ⟨['C', 'I', 'R'], 0x7080, .cir⟩, ⟨['C', 'I', 'L'], 0x7040, .cil⟩,
    ⟨['I', 'N', 'C'], 0x7020, .inc⟩, ⟨['S', 'P', 'A'], 0x7010, .spa⟩, ⟨['S', 'N', 'A'], 0x7008, .sna⟩,
    ⟨['S', 'Z', 'A'], 0x7004, .sza⟩, ⟨['S', 'Z', 'E'], 0x7002, .sze⟩, ⟨['H', 'L', 'T'], 0x7001, .hlt⟩,
    ⟨['I', 'N', 'P'], 0xF800, .inp⟩, ⟨['O', 'U', 'T'], 0xF400, .out⟩, ⟨['S', 'K', 'I'], 0xF200, .ski⟩,
    ⟨['S', 'K', 'O'], 0xF100, .sko⟩, ⟨['I', 'O', 'N'], 0xF080, .ion⟩, ⟨['I', 'O', 'F'], 0xF040, .iof⟩ ]

/-- Opcode 7: the instruction whose 16-bit value equals the word, all 16 bits compared; any other word is
unassigned (R83, R86, R87). -/
def decodeFixed (w : Word) : Instr :=
  match fixedRows.find? (fun row => row.word == w) with
  | some row => row.instr
  | none => .unassigned (indirectBit w) (addressField w)

/-- The decode algorithm of R86. -/
def decode (w : Word) : Instr :=
  match (opcodeField w).toNat with
  | 0 => .and (indirectBit w) (addressField w)
  | 1 => .add (indirectBit w) (addressField w)
  | 2 => .lda (indirectBit w) (addressField w)
  | 3 => .sta (indirectBit w) (addressField w)
  | 4 => .bun (indirectBit w) (addressField w)
  | 5 => .bsa (indirectBit w) (addressField w)
  | 6 => .isz (indirectBit w) (addressField w)
  | _ => decodeFixed w

/-- The instruction the decoder reads from the table's bits: an instruction is one word, bit 0 of `w` is bit 0 of
that word, and bits above `nbits` are 0. No word is refused (R86). -/
def decodeTableWord (nbits w : Nat) : Option Instr :=
  some (decode (BitVec.ofNat 16 (w % 2 ^ nbits)))

/-- Three fields side by side, bit 15 first (R81, R82, R83). -/
def joinFields (top : Bool) (op : BitVec 3) (low : Addr) : Word :=
  ((BitVec.ofBool top ++ op : BitVec 4) ++ low : BitVec 16)

/-- The word of an instruction (R82 for the memory-reference format, R85 for the fixed patterns). -/
def encode : Instr → Word
  | .and ind adr => joinFields ind 0b000#3 adr
  | .add ind adr => joinFields ind 0b001#3 adr
  | .lda ind adr => joinFields ind 0b010#3 adr
  | .sta ind adr => joinFields ind 0b011#3 adr
  | .bun ind adr => joinFields ind 0b100#3 adr
  | .bsa ind adr => joinFields ind 0b101#3 adr
  | .isz ind adr => joinFields ind 0b110#3 adr
  | .cla => 0b0111100000000000#16
  | .cle => 0b0111010000000000#16
  | .cma => 0b0111001000000000#16
  | .cme => 0b0111000100000000#16
  | .cir => 0b0111000010000000#16
  | .cil => 0b0111000001000000#16
  | .inc => 0b0111000000100000#16
  | .spa => 0b0111000000010000#16
  | .sna => 0b0111000000001000#16
  | .sza => 0b0111000000000100#16
  | .sze => 0b0111000000000010#16
  | .hlt => 0b0111000000000001#16
  | .inp => 0b1111100000000000#16
  | .out => 0b1111010000000000#16
  | .ski => 0b1111001000000000#16
  | .sko => 0b1111000100000000#16
  | .ion => 0b1111000010000000#16
  | .iof => 0b1111000001000000#16
  | .unassigned group low => joinFields group 0b111#3 low

end Sys2Proof
end

