-- ==== Sys2Proof/Config.lean ====
section
/-! DEFINITION. What is fixed for a machine: the fixed parameters of spec/00_scope.md R6, the type of the parameters
R7 leaves to the model's user (their values stand in State.params), and the free values, which nothing in Lean can evaluate. -/

namespace Sys2Proof.Config

/-- MEMWORDS (R6). -/
def memWords : Nat := 4096

/-- The interrupt save address (R6, spec/20_memory.md R68). -/
def interruptSaveAddress : Addr := 0#12

/-- The interrupt entry address (R6, spec/20_memory.md R68). -/
def interruptEntry : Addr := 1#12

/-- INP_HIGH: what INP does to AC[15:8] (R7, decision D10). -/
inductive InpHigh where
  | keep
  | zero
deriving DecidableEq, Repr

/-- ADD_E_OPERAND: the register whose bit 15 is ANDed with AC[15] to give E on ADD (R7, conflict C2). -/
inductive AddEOperand where
  | mar
  | dr
deriving DecidableEq, Repr

/-- The parameters the model takes as arguments (R7), but POWER_ON, which is the argument of `State.powerOn`. -/
structure Params where
  /-- HIST_DEPTH: the largest number of frames the history can hold, `none` for unbounded (D8). -/
  histDepth : Option Nat
  inpHigh : InpHigh
  outClearsFgo : Bool
  incSetsE : Bool
  addEOperand : AddEOperand
deriving DecidableEq, Repr

/-- The default column of R7. -/
def defaults : Params :=
  { histDepth := none, inpHigh := .keep, outClearsFgo := true, incSetsE := false, addEOperand := .mar }

/-- The three external values the Host supplies with a STEP (spec/00_scope.md R8). -/
structure HostInputs where
  fgi : Bool
  fgo : Bool
  inpr : Byte
deriving DecidableEq, Repr, Inhabited

/-- FREE VALUE (log entry 2): the inputs of the `n`-th STEP that the Host issues of its own accord, when no command
is listed in `State.host`. R9: the Host's inputs are the machine's only non-determinism. -/
opaque hostInputs : Nat → HostInputs

/-- FREE VALUE (log entry 9): whether a text-level STEP that is both malformed and not acceptable in the state
reports StateError (true) or InputValidationError (false); spec/50_host_and_history.md R203 and R204 do not order them. -/
opaque stateErrorFirst : Bool

/-- FREE VALUE (log entry 13): the number reported as `Line <n>` for the source line at a 0-based position;
spec/31_assembler.md R115 does not say how lines are numbered. -/
opaque lineNumber : Nat → Nat

/-- FREE VALUE (log entry 14): the 12 bits emitted for a reference to a label that pass 1 bound to an address beyond
4095; such an assembly fails later, but the word stands in the partial image of LOAD_FAIL. -/
opaque wideAddressField : Nat → Addr

end Sys2Proof.Config
end

