-- ==== Sys2Proof/Machine/State.lean ====
section
/-! DEFINITION. The machine's state as plain data (spec/10_state.md R20), the reasons a step can stop, and the
state after reset (R43). -/

namespace Sys2Proof.Machine

/-- One listed memory word: its word address and its value. -/
abbrev WordCell := Nat × Word

/-- The memory of 4096 words (spec/20_memory.md R60): the listed words, every other word being 0 (R43,
spec/31_assembler.md R101). The canonical form is `Memory.wf` of Machine/Ops.lean; log entry 1. -/
structure Memory where
  cells : List WordCell
deriving DecidableEq, Repr

/-- The register file, which is also the register snapshot: the sixteen values of spec/10_state.md R41. -/
structure Registers where
  /-- IR, the current instruction register (R22). -/
  ir : Word
  /-- AC, the accumulator (R23). -/
  ac : Word
  /-- DR, the data register, which no operation reads or writes by default (R24). -/
  dr : Word
  /-- PC, the program counter (R27). -/
  pc : Addr
  /-- AR, the address register (R28). -/
  ar : Addr
  /-- MAR, the memory staging register: data, not an address (R25). -/
  mar : Word
  /-- TR, the temporary register, which no operation uses (R26). -/
  tr : Word
  /-- I, the indirect bit of the current instruction (R29). -/
  i : Bool
  /-- E, the overflow/extension bit (R30). -/
  e : Bool
  /-- R, the interrupt-cycle-pending flag (R31). -/
  r : Bool
  /-- IEN, the interrupt-enable flag (R32). -/
  ien : Bool
  /-- FGI, the input-ready flag (R33). -/
  fgi : Bool
  /-- FGO, the output-ready flag (R33). -/
  fgo : Bool
  /-- INPR, the input buffer (R34). -/
  inpr : Byte
  /-- OUTR, the output buffer (R35). -/
  outr : Byte
  /-- H, the halt flag (R38). -/
  h : Bool
deriving DecidableEq, Repr

/-- Every register and flag 0 (R43). -/
def Registers.zero : Registers :=
  { ir := 0, ac := 0, dr := 0, pc := 0, ar := 0, mar := 0, tr := 0, i := false, e := false, r := false,
    ien := false, fgi := false, fgo := false, inpr := 0, outr := 0, h := false }

/-- A memory diff: the address a step wrote and the value the word had before the write (spec/50_host_and_history.md R208). -/
structure MemDiff where
  address : Addr
  prior : Word
deriving DecidableEq, Repr

/-- A history frame (spec/10_state.md R40). -/
structure Frame where
  registers : Registers
  memoryWrite : Option MemDiff
deriving DecidableEq, Repr

/-- The reset frame: an all-zero snapshot and no memory write (R40, R43). -/
def resetFrame : Frame := { registers := Registers.zero, memoryWrite := none }

/-- One logical line of source (spec/31_assembler.md R100). -/
structure SourceLine where
  label : Option (List Char)
  instruction : List Char
  comment : List Char
deriving DecidableEq, Repr

/-- The error kinds of spec/31_assembler.md R115, and the rejection of R103. -/
inductive SyntaxErrorKind where
  | invalidLabel
  | originOrEndMisuse
  | malformedOrigin
  | malformedHex
  | malformedDecimal
  | literalOutOfRange
  | undefinedLabel
  | malformedMemoryReference
  | unrecognizedMnemonic
  | locationCounterExceeded
  | illegalCharacter
deriving DecidableEq, Repr

/-- SyntaxError(line, message) (R115, spec/50_host_and_history.md R220), the message given as its kind (log entry 15). -/
structure SyntaxFailure where
  line : Nat
  kind : SyntaxErrorKind
deriving DecidableEq, Repr

/-- One binding of the Symbol Table (spec/31_assembler.md R100). -/
structure SymbolBinding where
  name : List Char
  address : Nat
deriving DecidableEq, Repr

/-- What the Host can ask (spec/50_host_and_history.md R200). An image stands for its 4096 words, an unlisted one being 0. -/
inductive Command where
  /-- LOAD_OK(image) (R201). -/
  | loadOk (image : Memory)
  /-- LOAD_FAIL(image), with the error it reports (R202). -/
  | loadFail (image : Memory) (failure : SyntaxFailure)
  /-- The whole `assemble` operation: it ends in LOAD_OK or LOAD_FAIL (spec/31_assembler.md R116, R117). -/
  | assemble (source : List SourceLine)
  /-- STEP(fgi, fgo, inpr) at the typed interface (R200, R204). -/
  | step (inputs : Config.HostInputs)
  /-- STEP at the text-level interface, where the inputs can be malformed (R204). -/
  | stepText (fgi fgo inpr : List Char)
  /-- STEP_BACK (R214). -/
  | stepBack
  /-- DUMP_MEM (R219). -/
  | dumpMem
  /-- DUMP_REGS (R219). -/
  | dumpRegs
deriving DecidableEq, Repr

/-- The result of a command (the result column of R200). -/
inductive Reply where
  /-- LOAD_OK: ok. -/
  | ok
  /-- A successful assembly: ok, and the Symbol Table it populated (spec/31_assembler.md R100, R116). -/
  | assembled (symbols : List SymbolBinding)
  /-- SyntaxError (R220). -/
  | syntaxError (failure : SyntaxFailure)
  /-- The StepOutcome of an accepted STEP (R207). -/
  | stepOutcome (registers : Registers) (wasInterrupt halted : Bool)
  /-- InputValidationError (R204, R220). -/
  | inputValidationError
  /-- StateError (R203, R215, R220). -/
  | stateError
  /-- The register snapshot of STEP_BACK (R214) and of DUMP_REGS (R219). -/
  | snapshot (registers : Registers)
  /-- The words of memory, for DUMP_MEM (R219). -/
  | memory (image : Memory)
deriving DecidableEq, Repr

/-- The whole state: `mem`, `regs`, `loaded` and `hist` are the machine's (R20); the other fields are the model's own. -/
structure State where
  /-- M[0..4095]. -/
  mem : Memory
  /-- The register file with H. -/
  regs : Registers
  /-- LOADED (R39). -/
  loaded : Bool
  /-- HIST (R40), the newest frame first; log entry 16. -/
  hist : List Frame
  /-- The model's own: the memory diff of the step being performed (`memw` of R130), none between commands; log entry 6. -/
  memw : Option MemDiff
  /-- The model's own: the parameters of R7; no command changes them; log entry 4. -/
  params : Config.Params
  /-- The model's own: the commands the Host has pending, the next one first; log entry 2. -/
  host : List Command
  /-- The model's own: how many STEPs with free inputs were issued; log entry 3. -/
  tick : Nat
  /-- The model's own: the result of the last command; log entry 7. -/
  reply : Option Reply
deriving DecidableEq, Repr

/-- Why a step would stop with a fault: no reason exists. No instruction of this hardware traps, faults or is refused
(spec/60_exceptions.md R230) and the Host-level errors are replies (R231), so the type has no constructor. -/
inductive Fault where
deriving DecidableEq, Repr

/-- Why a step would be refused. -/
inductive Refusal where
  /-- Raised by an arm of `exec` whose instruction has no meaning yet: no arm does so in this model. Safe: the machine
  stops where the hardware would go on. -/
  | notModelled (mnemonic : String)
deriving DecidableEq, Repr

/-- The state after reset, which is a successful load (R43, spec/70_reset_and_hazards.md R250): every register and flag 0,
LOADED = 1, the history at the single reset frame. Memory lists nothing: the all-zero image, no program placed (log entry 8). -/
def State.reset : State :=
  { mem := ⟨[]⟩, regs := Registers.zero, loaded := true, hist := [resetFrame], memw := none,
    params := Config.defaults, host := [], tick := 0, reply := none }

/-- Before the first successful load: LOADED = 0, and every register and memory word is a value of the parameter
POWER_ON (R44, decision D9); the history cannot be observed and is taken empty. -/
def State.powerOn (params : Config.Params) (mem : Memory) (regs : Registers) : State :=
  { mem := mem, regs := regs, loaded := false, hist := [], memw := none, params := params, host := [], tick := 0,
    reply := none }

end Sys2Proof.Machine
end

