-- ==== Sys2Proof/Machine/Ops.lean ====
section
/-! DEFINITION. The named operations: memory words, register transfers, the phases every step shares
(spec/40_instruction_cycle.md), the interrupt-service cycle (spec/60_exceptions.md R236), loading, the frame test and
step-back (spec/50_host_and_history.md). -/

namespace Sys2Proof.Machine

/-! ### Memory -/

/-- The value of the first listed word at an address, 0 where none is listed. -/
def readCells : List WordCell → Nat → Word
  | [], _ => 0#16
  | (b, w) :: rest, a => if a = b then w else readCells rest a

/-- Store a value in a rising list of words; the value 0 removes the entry. -/
def writeCells : List WordCell → Nat → Word → List WordCell
  | [], a, v => if v = 0#16 then [] else [(a, v)]
  | (b, w) :: rest, a, v =>
    if a < b then (if v = 0#16 then (b, w) :: rest else (a, v) :: (b, w) :: rest)
    else if a = b then (if v = 0#16 then rest else (a, v) :: rest)
    else (b, w) :: writeCells rest a v

/-- Addresses strictly rising from `lo` on, below 4096, and no listed word 0. -/
def cellsWf : Nat → List WordCell → Bool
  | _, [] => true
  | lo, (a, v) :: rest => decide (lo ≤ a) && decide (a < Config.memWords) && decide (v ≠ 0#16) && cellsWf (a + 1) rest

/-- The canonical form of memory: equal memories are equal data. -/
def Memory.wf (m : Memory) : Bool := cellsWf 0 m.cells

/-- Memory with nothing listed: 4096 words of 0. -/
def Memory.empty : Memory := ⟨[]⟩

/-- MemRead(a, 16) (spec/20_memory.md R62). -/
def Memory.read (m : Memory) (a : Addr) : Word := readCells m.cells a.toNat

/-- The replacement of one word (R62). -/
def Memory.write (m : Memory) (a : Addr) (v : Word) : Memory := ⟨writeCells m.cells a.toNat v⟩

/-- The canonical list with the same words; entries at addresses that do not exist are dropped. -/
def canonicalCells : List WordCell → List WordCell
  | [] => []
  | (a, v) :: rest => if a < Config.memWords then writeCells (canonicalCells rest) a v else canonicalCells rest

/-- The memory an image stands for, in canonical form. -/
def Memory.ofImage (image : Memory) : Memory := ⟨canonicalCells image.cells⟩

/-! ### Register transfers -/

/-- Register transfers: the register file changes, nothing else does. -/
def State.mapRegs (s : State) (f : Registers → Registers) : State := { s with regs := f s.regs }

/-- MemWrite(a, 16, v): record the address and the old value, then write (spec/50_host_and_history.md R208). -/
def State.memWrite (s : State) (a : Addr) (v : Word) : State :=
  { s with memw := some ⟨a, s.mem.read a⟩, mem := s.mem.write a v }

/-- `MAR <- MemRead(AR, 16)` (spec/40_instruction_cycle.md R133, R135, R136). -/
def State.readMar (s : State) : State := s.mapRegs fun g => { g with mar := s.mem.read g.ar }

/-- `if c then PC <- PC +_12 1`: the skip of ISZ, SPA, SNA, SZA, SZE, SKI and SKO (spec/10_state.md R27). -/
def State.skipIf (s : State) (c : Bool) : State := s.mapRegs fun g => { g with pc := if c then g.pc + 1 else g.pc }

/-- A 12-bit PC as it is stored: zero-extended to 16 bits (spec/20_memory.md R62). -/
def storedPc (pc : Addr) : Word := pc.setWidth 16

/-! ### The phases of a step -/

/-- The latch of the external inputs, and `memw <- none` (spec/40_instruction_cycle.md R130, R131). -/
def State.latch (s : State) (x : Config.HostInputs) : State :=
  { s with memw := none, regs := { s.regs with fgi := x.fgi, fgo := x.fgo, inpr := x.inpr } }

/-- Fetch: `AR <- PC; MAR <- M[AR]; IR <- MAR; PC <- PC +_12 1` (R133). -/
def State.fetch (s : State) : State :=
  (s.mapRegs fun g => { g with ar := g.pc }).readMar.mapRegs fun g => { g with ir := g.mar, pc := g.pc + 1 }

/-- `R <- IEN & (FGI | FGO)` from the values execute left (R138). -/
def State.recomputeR (s : State) : State := s.mapRegs fun g => { g with r := g.ien && (g.fgi || g.fgo) }

/-- The park on HLT: `if IR = 0x7001 then PC <- PC -_12 1` (R140). -/
def State.parkOnHlt (s : State) : State :=
  s.mapRegs fun g => { g with pc := if g.ir = 0x7001#16 then g.pc - 1 else g.pc }

/-- TAKING THE INTERRUPT: the interrupt-service cycle (spec/60_exceptions.md R236). It saves PC, zero-extended, in the word
at address 0, goes to address 1 and clears IEN, R and H. The return is the instruction BUN 0 I (R238), which needs no
operation of its own. -/
def State.interruptService (s : State) : State :=
  (s.memWrite Config.interruptSaveAddress (storedPc s.regs.pc)).mapRegs fun g =>
    { g with pc := Config.interruptEntry, ien := false, r := false, h := false }

/-! ### The history -/

/-- The frame test: `PC != pc_before or h_before = 0` (spec/50_host_and_history.md R210). -/
def pushesFrame (pcBefore : Addr) (hBefore : Bool) (pcAfter : Addr) : Bool := pcAfter != pcBefore || !hBefore

/-- Push the step's frame if the frame test holds (R209, R210); the step's memory diff ends here. -/
def State.recordFrame (s : State) (pcBefore : Addr) (hBefore : Bool) : State :=
  { s with
    hist := if pushesFrame pcBefore hBefore s.regs.pc then ⟨s.regs, s.memw⟩ :: s.hist else s.hist
    memw := none }

/-- Return a result to the Host. -/
def State.answer (s : State) (reply : Reply) : State := { s with reply := some reply }

/-- The end of an accepted STEP: the frame test and the StepOutcome (R207, R210). -/
def State.finishStep (s : State) (pcBefore : Addr) (hBefore wasInterrupt : Bool) : State :=
  (s.recordFrame pcBefore hBefore).answer (.stepOutcome s.regs wasInterrupt s.regs.h)

/-- The history holds HIST_DEPTH frames already (spec/93_implementation_defined.md U9; R212). -/
def State.historyFull (s : State) : Bool :=
  match s.params.histDepth with
  | none => false
  | some depth => decide (depth ≤ s.hist.length)

/-- Put one memory word back as a popped frame recorded it (R214). -/
def Memory.undo (m : Memory) : Option MemDiff → Memory
  | none => m
  | some d => m.write d.address d.prior

/-- STEP_BACK (R214); refused before a load and when at most the reset frame is left (R215). -/
def State.stepBack (s : State) : State :=
  match s.loaded, s.hist with
  | true, f :: g :: older =>
    { s with hist := g :: older, regs := g.registers, mem := s.mem.undo f.memoryWrite,
             reply := some (.snapshot g.registers) }
  | _, _ => s.answer .stateError

/-! ### Loading -/

/-- The effect of LOAD_OK(image), which is the hardware's reset (R201, spec/70_reset_and_hazards.md R250). -/
def State.load (s : State) (image : Memory) : State :=
  { s with mem := image.ofImage, regs := Registers.zero, hist := [resetFrame], loaded := true, memw := none }

/-- The effect of LOAD_FAIL(image): memory only (R202). -/
def State.loadFailed (s : State) (image : Memory) : State := { s with mem := image.ofImage }

end Sys2Proof.Machine
end

