-- ==== Sys2Proof/Machine/Assembler.lean ====
section
/-! DEFINITION. The two-pass assembler, the toolchain of the hardware (spec/31_assembler.md; in scope by
spec/00_scope.md R4): from source lines to an image and a symbol table, or to the first error and the partial image. -/

namespace Sys2Proof.Machine

/-! ### Lexical rules -/

/-- A character that may stand in instruction text: `[0-9A-Z space dash]` (R103). -/
def instructionChar (c : Char) : Bool := c.isDigit || c.isUpper || c == ' ' || c == '-'

/-- The value of an upper-case hexadecimal digit (R103, R105, R108). -/
def hexDigitValue (c : Char) : Option Nat :=
  if c.isDigit then some (c.toNat - '0'.toNat)
  else if 'A'.toNat ≤ c.toNat && c.toNat ≤ 'F'.toNat then some (c.toNat - 'A'.toNat + 10)
  else none

/-- The value of a decimal digit. -/
def decimalDigitValue (c : Char) : Option Nat := if c.isDigit then some (c.toNat - '0'.toNat) else none

/-- The value of digits in a base, read after a value already read; `none` if a character is no digit. -/
def digitsValue (digit : Char → Option Nat) (base : Nat) : List Char → Nat → Option Nat
  | [], value => some value
  | c :: rest, value =>
    match digit c with
    | some d => digitsValue digit base rest (value * base + d)
    | none => none

/-- A hexadecimal numeral of at least one digit. More than four digits with a leading zero have no rule and are
refused (spec/93_implementation_defined.md U10; log entry 12). -/
def hexNumeral (text : List Char) : Option Nat :=
  if text.isEmpty || (decide (4 < text.length) && text.head? == some '0') then none
  else digitsValue hexDigitValue 16 text 0

/-- An unsigned decimal numeral; leading zeros have no rule and are refused (U10). -/
def decimalNumeral (text : List Char) : Option Nat :=
  if text.isEmpty || (decide (1 < text.length) && text.head? == some '0') then none
  else digitsValue decimalDigitValue 10 text 0

/-- A decimal literal: an optional leading minus, digits only afterward (R109); `-0` has no rule and is refused (U10). -/
def decimalLiteral (text : List Char) : Option Int :=
  match text with
  | '-' :: digits =>
    match decimalNumeral digits with
    | some 0 => none
    | some n => some (-(n : Int))
    | none => none
  | digits =>
    match decimalNumeral digits with
    | some n => some (n : Int)
    | none => none

/-- The text before the first space, and the text after it if there is a space. -/
def splitFirstSpace : List Char → List Char × Option (List Char)
  | [] => ([], none)
  | c :: rest =>
    if c == ' ' then ([], some rest)
    else
      match splitFirstSpace rest with
      | (before, after) => (c :: before, after)

/-! ### Labels -/

/-- The address bound to a label. -/
def lookupLabel (table : List SymbolBinding) (name : List Char) : Option Nat :=
  match table.find? (fun b => b.name == name) with
  | some b => some b.address
  | none => none

/-- The form a label must have: length 1 to 3, alphanumeric, first character not a digit (R102). -/
def labelForm (name : List Char) : Bool :=
  decide (1 ≤ name.length) && decide (name.length ≤ 3) && name.all Char.isAlphanum &&
    (match name.head? with
     | some c => !c.isDigit
     | none => false)

/-- Acceptance of a label: its form, and not already defined (R102). -/
def labelAccepted (table : List SymbolBinding) (name : List Char) : Bool :=
  labelForm name && (lookupLabel table name).isNone

/-! ### Lines -/

/-- Instruction text with nothing but spaces in it (log entry 24). -/
def blankText (text : List Char) : Bool := text.all (fun c => c == ' ')

/-- A fully blank line: no label and no instruction (R105, R107). -/
def SourceLine.blank (l : SourceLine) : Bool := l.label.isNone && blankText l.instruction

/-- The kinds of line that pass 1 tells apart (R105). -/
inductive LineKind where
  /-- `ORG` with its operand text. -/
  | origin (operand : List Char)
  /-- exactly `END`. -/
  | endOfSource
  /-- every other line: it takes one word. -/
  | emitting
deriving DecidableEq, Repr

/-- The kind of a line's instruction text (R104, R105). -/
def lineKind (text : List Char) : LineKind :=
  if text == ['E', 'N', 'D'] then .endOfSource
  else
    match splitFirstSpace text with
    | (word, operand) => if word == ['O', 'R', 'G'] then .origin (operand.getD []) else .emitting

/-- The error at a source position (R115; log entry 13). -/
def failureAt (position : Nat) (kind : SyntaxErrorKind) : SyntaxFailure := ⟨Config.lineNumber position, kind⟩

/-! ### Pass 1 -/

/-- Check a line's label and bind it to LC (R102, R105). -/
def bindLabel (label : Option (List Char)) (lc : Nat) (table : List SymbolBinding) :
    Except SyntaxErrorKind (List SymbolBinding) :=
  match label with
  | none => .ok table
  | some name => if labelAccepted table name then .ok (table ++ [⟨name, lc⟩]) else .error .invalidLabel

/-- Pass 1: LC starts at 0; labels are bound, ORG sets LC, END ends the pass, every other line advances LC by one
(R105); the first violation stops it (R106).
DESIGN CHOICE (log entry 12): a label on END, and a line with a label and an empty instruction, have no rule
(spec/93_implementation_defined.md U10); they are refused here, in pass 1, so that pass 2 never runs and the partial image
is all-zero. The spec does not say which pass refuses them. -/
def pass1 : List SourceLine → Nat → Nat → List SymbolBinding → Except SyntaxFailure (List SymbolBinding)
  | [], _, _, table => .ok table
  | l :: rest, position, lc, table =>
    if l.blank then pass1 rest (position + 1) lc table
    else
      match bindLabel l.label lc table with
      | .error kind => .error (failureAt position kind)
      | .ok table' =>
        match lineKind l.instruction with
        | .origin operand =>
          if l.label.isSome then .error (failureAt position .originOrEndMisuse)
          else
            match hexNumeral operand with
            | some value => pass1 rest (position + 1) value table'
            | none => .error (failureAt position .malformedOrigin)
        | .endOfSource =>
          if l.label.isSome then .error (failureAt position .originOrEndMisuse) else .ok table'
        | .emitting =>
          if blankText l.instruction then .error (failureAt position .unrecognizedMnemonic)
          else pass1 rest (position + 1) (lc + 1) table'

/-! ### Pass 2 -/

/-- The opcodes of the memory-reference mnemonics (R110). -/
def memoryReferenceOpcodes : List (List Char × BitVec 3) :=
  [ (['A', 'N', 'D'], 0b000#3), (['A', 'D', 'D'], 0b001#3), (['L', 'D', 'A'], 0b010#3), (['S', 'T', 'A'], 0b011#3),
    (['B', 'U', 'N'], 0b100#3), (['B', 'S', 'A'], 0b101#3), (['I', 'S', 'Z'], 0b110#3) ]

/-- The opcode of a memory-reference mnemonic. -/
def memoryReferenceOpcode (mnemonic : List Char) : Option (BitVec 3) :=
  match memoryReferenceOpcodes.find? (fun row => row.1 == mnemonic) with
  | some row => some row.2
  | none => none

/-- The word of a fixed-pattern mnemonic (R113). -/
def fixedWord (mnemonic : List Char) : Option Word :=
  match fixedRows.find? (fun row => row.mnemonic == mnemonic) with
  | some row => some row.word
  | none => none

/-- The 12-bit field of a reference to an address (R110); an address beyond 4095 gives a free value (log entry 14). -/
def referenceField (address : Nat) : Addr :=
  if address < Config.memWords then BitVec.ofNat 12 address else Config.wideAddressField address

/-- `HEX`: valid hexadecimal, value at most 65535 (R108). -/
def encodeHex (operand : List Char) : Except SyntaxErrorKind Word :=
  match hexNumeral operand with
  | none => .error .malformedHex
  | some value => if value ≤ 65535 then .ok (BitVec.ofNat 16 value) else .error .literalOutOfRange

/-- `DEC`: value in [-32768, 32767], stored in 16-bit two's complement (R109). -/
def encodeDecimal (operand : List Char) : Except SyntaxErrorKind Word :=
  match decimalLiteral operand with
  | none => .error .malformedDecimal
  | some value => if -32768 ≤ value ∧ value ≤ 32767 then .ok (BitVec.ofInt 16 value) else .error .literalOutOfRange

/-- A memory-reference instruction: exactly `symbol` or `symbol I` after the mnemonic and one space (R110). -/
def encodeMemoryReference (table : List SymbolBinding) (opcode : BitVec 3) (operand : List Char) :
    Except SyntaxErrorKind Word :=
  match splitFirstSpace operand with
  | (name, marker) =>
    if (name.isEmpty || decide (3 < name.length)) || !(marker == none || marker == some ['I']) then
      .error .malformedMemoryReference
    else
      match lookupLabel table name with
      | none => .error .undefinedLabel
      | some address => .ok (joinFields marker.isSome opcode (referenceField address))

/-- The word of one emitting line (R103, R104, R107 to R113). -/
def encodeLine (table : List SymbolBinding) (text : List Char) : Except SyntaxErrorKind Word :=
  if !text.all instructionChar then .error .illegalCharacter
  else
    match splitFirstSpace text with
    | (word, operand) =>
      if word == ['H', 'E', 'X'] then encodeHex (operand.getD [])
      else if word == ['D', 'E', 'C'] then encodeDecimal (operand.getD [])
      else
        match memoryReferenceOpcode word, operand with
        | some opcode, some rest => encodeMemoryReference table opcode rest
        | some _, none => .error .malformedMemoryReference
        | none, some _ => .error .unrecognizedMnemonic
        | none, none =>
          match fixedWord word with
          | some w => .ok w
          | none => .error .unrecognizedMnemonic

/-- The image after pass 2 stopped, and the error if one stopped it. -/
structure PassResult where
  image : Memory
  failure : Option SyntaxFailure
deriving DecidableEq, Repr

/-- Pass 2: the same walk, one word emitted at LC per emitting line (R107); emitting with LC at 4096 or more is the
LC exceeded error (R114). -/
def pass2 (table : List SymbolBinding) : List SourceLine → Nat → Nat → Memory → PassResult
  | [], _, _, image => ⟨image, none⟩
  | l :: rest, position, lc, image =>
    if l.blank then pass2 table rest (position + 1) lc image
    else
      match lineKind l.instruction with
      | .origin operand =>
        match hexNumeral operand with
        | some value => pass2 table rest (position + 1) value image
        | none => ⟨image, some (failureAt position .malformedOrigin)⟩
      | .endOfSource => ⟨image, none⟩
      | .emitting =>
        match encodeLine table l.instruction with
        | .error kind => ⟨image, some (failureAt position kind)⟩
        | .ok w =>
          if lc < Config.memWords then pass2 table rest (position + 1) (lc + 1) (image.write (BitVec.ofNat 12 lc) w)
          else ⟨image, some (failureAt position .locationCounterExceeded)⟩

/-- The outcome of an assembly (R100, R116, R117). -/
inductive Assembly where
  | success (image : Memory) (symbols : List SymbolBinding)
  | failed (image : Memory) (failure : SyntaxFailure)
deriving DecidableEq, Repr

/-- The two-pass assembler: the image is all-zero at the start, an error in pass 1 prevents pass 2 (R101, R106). -/
def assembleSource (source : List SourceLine) : Assembly :=
  match pass1 source 0 0 [] with
  | .error failure => .failed Memory.empty failure
  | .ok table =>
    match pass2 table source 0 0 Memory.empty with
    | ⟨image, none⟩ => .success image table
    | ⟨image, some failure⟩ => .failed image failure

end Sys2Proof.Machine
end

