-- ==== Sys2Proof/Machine/Flags.lean ====
section
/-! DEFINITION. Every flag computation of spec/10_state.md R30 to R32 and the conditions of the skips. -/

namespace Sys2Proof.Machine

/-- E of ADD: the AND of bit 15 of AC and bit 15 of the operand register, before the addition (spec/41_memory_reference.md
R152). The operand register is MAR unless ADD_E_OPERAND is DR (spec/93_implementation_defined.md U3). -/
def addFlagE (operand : Config.AddEOperand) (g : Registers) : Bool :=
  match operand with
  | .mar => g.ac.getLsbD 15 && g.mar.getLsbD 15
  | .dr => g.ac.getLsbD 15 && g.dr.getLsbD 15

/-- E of INC: unchanged, or with INC_SETS_E 1 exactly when AC was 0xFFFF (spec/42_register_reference.md R177). -/
def incFlagE (setsE : Bool) (g : Registers) : Bool := if setsE then g.ac == 0xFFFF#16 else g.e

/-- The condition of SPA: bit 15 of AC is 0 (R178). -/
def acNotNegative (g : Registers) : Bool := !g.ac.getLsbD 15

/-- The condition of SNA: bit 15 of AC is 1 (R179). -/
def acNegative (g : Registers) : Bool := g.ac.getLsbD 15

/-- The condition of SZA: all 16 bits of AC are 0 (R180). -/
def acZero (g : Registers) : Bool := g.ac == 0#16

/-- The condition of SZE: E is 0 (R181). -/
def eZero (g : Registers) : Bool := !g.e

end Sys2Proof.Machine
end

