-- ==== Sys2Proof/Machine/Operands.lean ====
section
/-! DEFINITION. The operand forms: decode of the two formats with the operand read and the indirection
(spec/40_instruction_cycle.md R134 to R136), the rotations of AC through E, and the character transfers. -/

namespace Sys2Proof.Machine

/-- Decode's transfers of every instruction: `AR <- IR[11:0]; I <- IR[15]` (R134). -/
def State.decodeFields (s : State) (ind : Bool) (low : Addr) : State := s.mapRegs fun g => { g with ar := low, i := ind }

/-- Decode of a memory-reference instruction: the fields, the read of the operand or the pointer (R135), and with I = 1
one level of indirection (R136). Afterwards AR is the effective address and MAR its word. -/
def State.decodeOperand (s : State) (ind : Bool) (adr : Addr) : State :=
  let direct := (s.decodeFields ind adr).readMar
  if ind then (direct.mapRegs fun g => { g with ar := addressField g.mar }).readMar else direct

/-- The effective address of spec/41_memory_reference.md R150. -/
def State.effectiveAddress (s : State) (ind : Bool) (adr : Addr) : Addr :=
  if ind then addressField (s.mem.read adr) else adr

/-- AC after a circulate right: `{E, AC[15:1]}` (spec/42_register_reference.md R175). -/
def circulateRight (e : Bool) (ac : Word) : Word := BitVec.cons e (ac.extractLsb' 1 15)

/-- AC after a circulate left: `{AC[14:0], E}` (R176). -/
def circulateLeft (e : Bool) (ac : Word) : Word := BitVec.concat (ac.extractLsb' 0 15) e

/-- AC after INP: INPR in the low byte, the high byte kept or zeroed by INP_HIGH (spec/43_input_output.md R191). -/
def inputToAc (high : Config.InpHigh) (ac : Word) (inpr : Byte) : Word :=
  match high with
  | .keep => (ac.extractLsb' 8 8 ++ inpr : BitVec 16)
  | .zero => inpr.setWidth 16

/-- AC[7:0], which OUT copies to OUTR (R192). -/
def outputByte (ac : Word) : Byte := ac.extractLsb' 0 8

end Sys2Proof.Machine
end

