-- ==== Sys2Proof/Machine/InputOutput.lean ====
section
/-! DEFINITION. The six input/output and interrupt-enable instructions (spec/43_input_output.md). Decode leaves I = 1
and the low 12 bits of the word in AR, and no indirection takes place (R190). -/

namespace Sys2Proof.Machine

/-- INP: INPR to AC and `FGI <- 0` (R191). -/
def execInp (s : State) : Host.Outcome State Fault Refusal :=
  .next ((s.decodeFields true 0x800).mapRegs fun g =>
    { g with ac := inputToAc s.params.inpHigh g.ac g.inpr, fgi := false })

/-- OUT: `OUTR <- AC[7:0]`, and FGO cleared when OUT_CLEARS_FGO (R192). -/
def execOut (s : State) : Host.Outcome State Fault Refusal :=
  .next ((s.decodeFields true 0x400).mapRegs fun g =>
    { g with outr := outputByte g.ac, fgo := if s.params.outClearsFgo then false else g.fgo })

/-- SKI: skip if FGI = 1 (R193). -/
def execSki (s : State) : Host.Outcome State Fault Refusal :=
  .next ((s.decodeFields true 0x200).skipIf s.regs.fgi)

/-- SKO: skip if FGO = 1 (R194). -/
def execSko (s : State) : Host.Outcome State Fault Refusal :=
  .next ((s.decodeFields true 0x100).skipIf s.regs.fgo)

/-- ION: `IEN <- 1` (R195). -/
def execIon (s : State) : Host.Outcome State Fault Refusal :=
  .next ((s.decodeFields true 0x080).mapRegs fun g => { g with ien := true })

/-- IOF: `IEN <- 0` (R196). -/
def execIof (s : State) : Host.Outcome State Fault Refusal :=
  .next ((s.decodeFields true 0x040).mapRegs fun g => { g with ien := false })

end Sys2Proof.Machine
end

