-- ==== Sys2Proof/Machine/MemoryReference.lean ====
section
/-! DEFINITION. The seven memory-reference instructions (spec/41_memory_reference.md): decode with the operand read, then
the execute phase. A meaning acts on the state fetch leaves: PC is already the address of the next word (R150). -/

namespace Sys2Proof.Machine

/-- AND: `AC <- AC & MAR` (R151). -/
def execAnd (ind : Bool) (adr : Addr) (s : State) : Host.Outcome State Fault Refusal :=
  .next ((s.decodeOperand ind adr).mapRegs fun g => { g with ac := g.ac &&& g.mar })

/-- ADD: `AC <- AC +_16 MAR`, and E from the two top bits before the addition (R152). -/
def execAdd (ind : Bool) (adr : Addr) (s : State) : Host.Outcome State Fault Refusal :=
  .next ((s.decodeOperand ind adr).mapRegs fun g =>
    { g with ac := g.ac + g.mar, e := addFlagE s.params.addEOperand g })

/-- LDA: `AC <- MAR` (R153). -/
def execLda (ind : Bool) (adr : Addr) (s : State) : Host.Outcome State Fault Refusal :=
  .next ((s.decodeOperand ind adr).mapRegs fun g => { g with ac := g.mar })

/-- STA: `MemWrite(AR, 16, AC)`; MAR keeps the old word (R154). -/
def execSta (ind : Bool) (adr : Addr) (s : State) : Host.Outcome State Fault Refusal :=
  let t := s.decodeOperand ind adr
  .next (t.memWrite t.regs.ar t.regs.ac)

/-- BUN: `PC <- AR` (R155). -/
def execBun (ind : Bool) (adr : Addr) (s : State) : Host.Outcome State Fault Refusal :=
  .next ((s.decodeOperand ind adr).mapRegs fun g => { g with pc := g.ar })

/-- BSA: `MemWrite(AR, 16, zext_16(PC)); AR <- AR +_12 1; PC <- AR` (R156). -/
def execBsa (ind : Bool) (adr : Addr) (s : State) : Host.Outcome State Fault Refusal :=
  let t := s.decodeOperand ind adr
  .next (((t.memWrite t.regs.ar (storedPc t.regs.pc)).mapRegs fun g => { g with ar := g.ar + 1 }).mapRegs fun g =>
    { g with pc := g.ar })

/-- ISZ: `MAR <- MAR +_16 1; MemWrite(AR, 16, MAR); if MAR = 0 then PC <- PC +_12 1` (R157). -/
def execIsz (ind : Bool) (adr : Addr) (s : State) : Host.Outcome State Fault Refusal :=
  let t := (s.decodeOperand ind adr).mapRegs fun g => { g with mar := g.mar + 1 }
  .next ((t.memWrite t.regs.ar t.regs.mar).skipIf (t.regs.mar == 0#16))

end Sys2Proof.Machine
end

