-- ==== Sys2Proof/Machine/RegisterReference.lean ====
section
/-! DEFINITION. The twelve register-reference instructions and the unassigned opcode-7 words
(spec/42_register_reference.md). Decode leaves I = 0 and the low 12 bits of the word in AR (R134, R170). -/

namespace Sys2Proof.Machine

/-- CLA: `AC <- 0` (R171). -/
def execCla (s : State) : Host.Outcome State Fault Refusal :=
  .next ((s.decodeFields false 0x800).mapRegs fun g => { g with ac := 0 })

/-- CLE: `E <- 0` (R172). -/
def execCle (s : State) : Host.Outcome State Fault Refusal :=
  .next ((s.decodeFields false 0x400).mapRegs fun g => { g with e := false })

/-- CMA: `AC <- ~AC` (R173). -/
def execCma (s : State) : Host.Outcome State Fault Refusal :=
  .next ((s.decodeFields false 0x200).mapRegs fun g => { g with ac := ~~~g.ac })

/-- CME: `E <- ~E` (R174). -/
def execCme (s : State) : Host.Outcome State Fault Refusal :=
  .next ((s.decodeFields false 0x100).mapRegs fun g => { g with e := !g.e })

/-- CIR: circulate AC right through E (R175). -/
def execCir (s : State) : Host.Outcome State Fault Refusal :=
  .next ((s.decodeFields false 0x080).mapRegs fun g =>
    { g with ac := circulateRight g.e g.ac, e := g.ac.getLsbD 0 })

/-- CIL: circulate AC left through E (R176). -/
def execCil (s : State) : Host.Outcome State Fault Refusal :=
  .next ((s.decodeFields false 0x040).mapRegs fun g =>
    { g with ac := circulateLeft g.e g.ac, e := g.ac.getLsbD 15 })

/-- INC: `AC <- AC +_16 1`, E as INC_SETS_E says (R177). -/
def execInc (s : State) : Host.Outcome State Fault Refusal :=
  .next ((s.decodeFields false 0x020).mapRegs fun g =>
    { g with ac := g.ac + 1, e := incFlagE s.params.incSetsE g })

/-- SPA: skip if AC[15] = 0 (R178). -/
def execSpa (s : State) : Host.Outcome State Fault Refusal :=
  .next ((s.decodeFields false 0x010).skipIf (acNotNegative s.regs))

/-- SNA: skip if AC[15] = 1 (R179). -/
def execSna (s : State) : Host.Outcome State Fault Refusal :=
  .next ((s.decodeFields false 0x008).skipIf (acNegative s.regs))

/-- SZA: skip if AC = 0 (R180). -/
def execSza (s : State) : Host.Outcome State Fault Refusal :=
  .next ((s.decodeFields false 0x004).skipIf (acZero s.regs))

/-- SZE: skip if E = 0 (R181). -/
def execSze (s : State) : Host.Outcome State Fault Refusal :=
  .next ((s.decodeFields false 0x002).skipIf (eZero s.regs))

/-- HLT: `H <- 1` (R182). The park of PC is a phase of the cycle, after R is recomputed (R140). -/
def execHlt (s : State) : Host.Outcome State Fault Refusal :=
  .next ((s.decodeFields false 0x001).mapRegs fun g => { g with h := true })

/-- An unassigned opcode-7 word: an empty execute phase (R183). -/
def execUnassigned (group : Bool) (low : Addr) (s : State) : Host.Outcome State Fault Refusal :=
  .next (s.decodeFields group low)

end Sys2Proof.Machine
end

