-- ==== Sys2Proof/Machine/Dispatch.lean ====
section
/-! DEFINITION. The meaning of each instruction, one arm per constructor (spec/40_instruction_cycle.md R137). -/

namespace Sys2Proof.Machine

-- `exec i s` performs decode's transfers, the operand read and the execute phase of `i` on the state fetch leaves.
def exec (i : Instr) (s : State) : Host.Outcome State Fault Refusal :=
  match i with
  | .and ind adr => Sys2Proof.Machine.execAnd ind adr s
  | .add ind adr => Sys2Proof.Machine.execAdd ind adr s
  | .lda ind adr => Sys2Proof.Machine.execLda ind adr s
  | .sta ind adr => Sys2Proof.Machine.execSta ind adr s
  | .bun ind adr => Sys2Proof.Machine.execBun ind adr s
  | .bsa ind adr => Sys2Proof.Machine.execBsa ind adr s
  | .isz ind adr => Sys2Proof.Machine.execIsz ind adr s
  | .cla => Sys2Proof.Machine.execCla s
  | .cle => Sys2Proof.Machine.execCle s
  | .cma => Sys2Proof.Machine.execCma s
  | .cme => Sys2Proof.Machine.execCme s
  | .cir => Sys2Proof.Machine.execCir s
  | .cil => Sys2Proof.Machine.execCil s
  | .inc => Sys2Proof.Machine.execInc s
  | .spa => Sys2Proof.Machine.execSpa s
  | .sna => Sys2Proof.Machine.execSna s
  | .sza => Sys2Proof.Machine.execSza s
  | .sze => Sys2Proof.Machine.execSze s
  | .hlt => Sys2Proof.Machine.execHlt s
  | .inp => Sys2Proof.Machine.execInp s
  | .out => Sys2Proof.Machine.execOut s
  | .ski => Sys2Proof.Machine.execSki s
  | .sko => Sys2Proof.Machine.execSko s
  | .ion => Sys2Proof.Machine.execIon s
  | .iof => Sys2Proof.Machine.execIof s
  | .unassigned group low => Sys2Proof.Machine.execUnassigned group low s

end Sys2Proof.Machine
end

