-- ==== Sys2Proof/Machine/Engine.lean ====
section
/-! DEFINITION. One accepted step (spec/40_instruction_cycle.md R130) and the Host commands around it
(spec/50_host_and_history.md R200 to R220). -/

namespace Sys2Proof.Machine

/-- The normal cycle: fetch, decode and execute, the recomputation of R, the park on HLT (R130). -/
def normalCycle (s : State) : Host.Outcome State Fault Refusal :=
  match exec (decode s.fetch.regs.ir) s.fetch with
  | .next t => .next t.recomputeR.parkOnHlt
  | .fault reason => .fault reason
  | .refused reason => .refused reason

/-- An accepted STEP: the latch, then one interrupt-service cycle or one normal cycle, then the frame test and the
StepOutcome (R130, R206, R207). -/
def performStep (x : Config.HostInputs) (s : State) : Host.Outcome State Fault Refusal :=
  if (s.latch x).regs.r then .next ((s.latch x).interruptService.finishStep s.regs.pc s.regs.h true)
  else
    match normalCycle (s.latch x) with
    | .next t => .next (t.finishStep s.regs.pc s.regs.h false)
    | .fault reason => .fault reason
    | .refused reason => .refused reason

/-- A STEP is accepted when a load has succeeded (R203, R206) and a finite history has room (U9). -/
def State.acceptsStep (s : State) : Bool := s.loaded && !s.historyFull

/-- STEP(fgi, fgo, inpr): refused with StateError, nothing else changing, when it is not accepted (R203, R205). -/
def stepCommand (x : Config.HostInputs) (s : State) : Host.Outcome State Fault Refusal :=
  if s.acceptsStep then performStep x s else .next (s.answer .stateError)

/-- Exactly one binary digit (R204). -/
def parseBit (text : List Char) : Option Bool :=
  match text with
  | ['0'] => some false
  | ['1'] => some true
  | _ => none

/-- The value of binary digits, the most significant first, read after a value already read. -/
def binaryValue : List Char → Nat → Option Nat
  | [], value => some value
  | c :: rest, value =>
    if c == '0' then binaryValue rest (2 * value)
    else if c == '1' then binaryValue rest (2 * value + 1)
    else none

/-- Exactly eight binary digits, the most significant first (R204). -/
def parseByte (text : List Char) : Option Byte :=
  if text.length = 8 then
    match binaryValue text 0 with
    | some value => some (BitVec.ofNat 8 value)
    | none => none
  else none

/-- The three text inputs of a STEP; `none` if one is malformed (R204). -/
def parseInputs (fgi fgo inpr : List Char) : Option Config.HostInputs :=
  match parseBit fgi, parseBit fgo, parseByte inpr with
  | some a, some b, some c => some ⟨a, b, c⟩
  | _, _, _ => none

/-- STEP at the text-level interface: malformed input aborts it with InputValidationError and mutates nothing (R204).
Which error is reported when the state refuses the step too is a free value (log entry 9). -/
def stepTextCommand (fgi fgo inpr : List Char) (s : State) : Host.Outcome State Fault Refusal :=
  match parseInputs fgi fgo inpr with
  | some x => stepCommand x s
  | none =>
    if !s.acceptsStep && Config.stateErrorFirst then .next (s.answer .stateError)
    else .next (s.answer .inputValidationError)

/-- `assemble`: LOAD_OK on success, LOAD_FAIL on failure (spec/31_assembler.md R116, R117). -/
def assembleCommand (source : List SourceLine) (s : State) : State :=
  match assembleSource source with
  | .success image symbols => (s.load image).answer (.assembled symbols)
  | .failed image failure => (s.loadFailed image).answer (.syntaxError failure)

/-- One Host command, run to completion (R200). -/
def runCommand (c : Command) (s : State) : Host.Outcome State Fault Refusal :=
  match c with
  | .loadOk image => .next ((s.load image).answer .ok)
  | .loadFail image failure => .next ((s.loadFailed image).answer (.syntaxError failure))
  | .assemble source => .next (assembleCommand source s)
  | .step x => stepCommand x s
  | .stepText fgi fgo inpr => stepTextCommand fgi fgo inpr s
  | .stepBack => .next s.stepBack
  | .dumpMem => .next (s.answer (.memory s.mem))
  | .dumpRegs => .next (s.answer (.snapshot s.regs))

/-- The command the Host issues next: the first pending one, or with none pending a STEP whose inputs are a free
value (log entry 2). -/
def State.nextCommand (s : State) : Command :=
  match s.host with
  | c :: _ => c
  | [] => .step (Config.hostInputs s.tick)

/-- The state in which that command runs: it is pending no longer. -/
def State.issued (s : State) : State :=
  match s.host with
  | _ :: rest => { s with host := rest }
  | [] => { s with tick := s.tick + 1 }

/-- Put the word where the next fetch reads it, and make the next command an accepted STEP that performs a normal
cycle: LOADED = 1, no interrupt pending, room in the history, and STEP(0, 0, 00) next (log entry 8). -/
def State.placeInstruction (s : State) (w : Word) : State :=
  { s with
    mem := s.mem.write s.regs.pc w
    regs := { s.regs with r := false }
    loaded := true
    params := if s.historyFull then { s.params with histDepth := none } else s.params
    host := .step ⟨false, false, 0⟩ :: s.host }

end Sys2Proof.Machine
end

