-- ==== Sys2Proof/Machine/Step.lean ====
section
/-! DEFINITION. One step of the machine: the Host's next command, run to completion (spec/00_scope.md R8,
spec/50_host_and_history.md R200). -/

namespace Sys2Proof.Machine

/-- The next command of the Host. -/
def step (s : State) : Host.Outcome State Fault Refusal := runCommand s.nextCommand s.issued

/-- The state whose very next step fetches and runs the instruction with the table's bits `w`. -/
def State.withFetchWord (s : State) (nbits w : Nat) : State :=
  s.placeInstruction (BitVec.ofNat 16 (w % 2 ^ nbits))

end Sys2Proof.Machine
end

