-- ==== Sys2Proof/Safety.lean ====
section
/-! DEFINITION. The terms the claims use: runs of commands, an instruction's meaning repeated, the states a load reaches,
the diff a step records, and the invariants the commands keep. -/

namespace Sys2Proof.Machine

/-- Commands one after the other (spec/00_scope.md R8). -/
def runAll : List Command → State → Host.Outcome State Fault Refusal
  | [], s => .next s
  | c :: rest, s =>
    match runCommand c s with
    | .next t => runAll rest t
    | .fault reason => .fault reason
    | .refused reason => .refused reason

/-- The meaning of one instruction, `n` times in a row. -/
def execTimes (i : Instr) : Nat → State → Host.Outcome State Fault Refusal
  | 0, s => .next s
  | n + 1, s =>
    match exec i s with
    | .next t => execTimes i n t
    | .fault reason => .fault reason
    | .refused reason => .refused reason

/-- The states reachable from a successful load by STEP and STEP_BACK commands (spec/10_state.md R45, R46). -/
inductive Reachable : State → Prop where
  | load (s : State) (image : Memory) : Reachable ((s.load image).answer .ok)
  | step {s t : State} (x : Config.HostInputs) : Reachable s → runCommand (.step x) s = .next t → Reachable t
  | stepBack {s t : State} : Reachable s → runCommand .stepBack s = .next t → Reachable t

/-- The next command is an accepted STEP with these inputs. -/
def State.StepPending (s : State) (x : Config.HostInputs) (rest : List Command) : Prop :=
  s.host = .step x :: rest ∧ s.acceptsStep = true

/-- The next command is an accepted STEP, and with R = 0 it performs a normal cycle (spec/40_instruction_cycle.md R132). -/
def State.NormalStepPending (s : State) (x : Config.HostInputs) (rest : List Command) : Prop :=
  s.StepPending x rest ∧ s.regs.r = false

/-- The diff of an accepted step taken in this state: the interrupt-service cycle writes address 0; STA, BSA and ISZ write
their effective address; nothing else writes (spec/50_host_and_history.md R208, spec/20_memory.md R65). -/
def State.stepDiff (s : State) : Option MemDiff :=
  if s.regs.r then some ⟨0, s.mem.read 0⟩
  else
    match decode (s.mem.read s.regs.pc) with
    | .sta ind adr => some ⟨s.effectiveAddress ind adr, s.mem.read (s.effectiveAddress ind adr)⟩
    | .bsa ind adr => some ⟨s.effectiveAddress ind adr, s.mem.read (s.effectiveAddress ind adr)⟩
    | .isz ind adr => some ⟨s.effectiveAddress ind adr, s.mem.read (s.effectiveAddress ind adr)⟩
    | _ => none

/-- The invariant every command keeps: memory is canonical, no diff is left over, and once a load has succeeded DR and TR
are 0 in the registers and in every frame, and the oldest frame is the reset frame (spec/10_state.md R45). -/
def State.Inv (s : State) : Prop :=
  s.mem.wf = true ∧ s.memw = none ∧
    (s.loaded = true →
      s.regs.dr = 0 ∧ s.regs.tr = 0 ∧ s.hist.getLast? = some resetFrame ∧
        ∀ f ∈ s.hist, f.registers.dr = 0 ∧ f.registers.tr = 0)

/-- Registers with H = 1 are those a HLT leaves, and PC is at that HLT in the memory `m` (spec/10_state.md R46,
spec/42_register_reference.md R182). -/
def HaltFits (m : Memory) (g : Registers) : Prop :=
  g.h = true → m.read g.pc = 0x7001 ∧ g.ir = 0x7001 ∧ g.mar = 0x7001 ∧ g.ar = 0x001 ∧ g.i = false

/-- Every frame's halt fits the memory undone down to that frame. A frame above a halted one that was not parked at
address 1 recorded a write of address 0: only the interrupt-service cycle leaves a halt, and it pushes no frame only at
address 1 (spec/50_host_and_history.md R211). -/
def FramesFit : Memory → List Frame → Prop
  | _, [] => True
  | m, f :: older =>
    HaltFits m f.registers ∧
      (∀ g, older.head? = some g → g.registers.h = true → g.registers.pc = 1 ∨ ∃ v, f.memoryWrite = some ⟨0, v⟩) ∧
      FramesFit (m.undo f.memoryWrite) older

/-- The registers are those of the newest frame `f`, except that frame-less steps may have changed FGI, FGO, INPR and R,
and a frame-less interrupt at address 1 also IEN and H (spec/50_host_and_history.md R211, R213). -/
def State.AgreesWith (s : State) (f : Frame) : Prop :=
  s.regs = { f.registers with
    fgi := s.regs.fgi, fgo := s.regs.fgo, inpr := s.regs.inpr, r := s.regs.r, ien := s.regs.ien, h := s.regs.h } ∧
  (f.registers.h = false → s.regs = f.registers) ∧
  ((s.regs.ien = f.registers.ien ∧ s.regs.h = f.registers.h) ∨
    (s.regs.pc = 1 ∧ s.regs.h = false ∧ s.regs.ien = false ∧ f.registers.h = true))

/-- The invariant of the halt and the history, which every command but a failed load keeps: memory is canonical, H = 1
means parked on a HLT, so it does in every frame over the memory undone down to it, and the newest frame agrees with the
registers. -/
def State.HistoryInv (s : State) : Prop :=
  s.mem.wf = true ∧ HaltFits s.mem s.regs ∧ FramesFit s.mem s.hist ∧
    ∃ f older, s.hist = f :: older ∧ s.AgreesWith f

/-- The next command is not one that ends in LOAD_FAIL (spec/50_host_and_history.md R202). -/
def State.NoFailedLoadNext (s : State) : Prop :=
  (∀ image failure, s.nextCommand ≠ .loadFail image failure) ∧
    ∀ source image failure, s.nextCommand = .assemble source → assembleSource source ≠ .failed image failure

/-- Each STEP of the sequence is performed and pushes a frame, and `t` is the state after the last one. -/
def EveryStepPushes : List Config.HostInputs → State → State → Prop
  | [], s, t => t = s
  | x :: rest, s, t =>
    ∃ u, runCommand (.step x) s = .next u ∧ u.hist.length = s.hist.length + 1 ∧ EveryStepPushes rest u t

end Sys2Proof.Machine
end

