-- ==== Sys2Proof/Certificates/Slice0/Obligations.lean ====
section
/-! DEFINITION. The statements for the provers, each `def Obligations.<Name> : Prop`. A docstring names the place of spec/
it formalises. "The spec's own decision" and "general knowledge" repeat the marks the spec sets on its own rules
(notes/assumptions/17.md and 18.md); a statement that rests on one is listed as derived. -/

open Sys2Proof Sys2Proof.Machine

/-! ### Encoding -/

/-- Words of the spec's tables and examples (30_encoding.md section 3, 41 to 43) decode to their instructions. -/
def Obligations.SpecWordsDecode : Prop :=
  decode 0x0010 = .and false 0x010 ∧ decode 0x9020 = .add true 0x020 ∧ decode 0x2000 = .lda false 0x000 ∧
  decode 0xB020 = .sta true 0x020 ∧ decode 0xC000 = .bun true 0x000 ∧ decode 0x5006 = .bsa false 0x006 ∧
  decode 0xEFFF = .isz true 0xFFF ∧ decode 0x7001 = .hlt ∧ decode 0x7080 = .cir ∧ decode 0xF800 = .inp ∧
  decode 0xF040 = .iof ∧ decode 0x7C00 = .unassigned false 0xC00 ∧ decode 0xF000 = .unassigned true 0x000

/-- Decoding the word of a well-formed instruction gives the instruction, with every operand (30_encoding.md section 5). -/
def Obligations.DecodeInvertsEncode : Prop := ∀ i : Instr, i.wf = true → decode (encode i) = i

/-- Every word is the word of exactly one well-formed instruction: the decoder is total and drops no bit
(30_encoding.md section 3, the decode algorithm). -/
def Obligations.EncodeInvertsDecode : Prop := ∀ w : Word, (decode w).wf = true ∧ encode (decode w) = w

/-! ### The memory-reference instructions (41_memory_reference.md), on the state fetch leaves -/

/-- R151 and R153: AND ands the operand into AC, LDA copies it there; decode's AR, MAR and I apart, nothing else
changes. -/
def Obligations.AndLdaResults : Prop :=
  ∀ (ind : Bool) (adr : Addr) (s : State),
    encode (.and ind adr) = joinFields ind 0b000#3 adr ∧
    (exec (.and ind adr) s = .next { s with regs := { s.regs with
      ar := s.effectiveAddress ind adr
      mar := s.mem.read (s.effectiveAddress ind adr)
      i := ind
      ac := s.regs.ac &&& s.mem.read (s.effectiveAddress ind adr) } }) ∧
    encode (.lda ind adr) = joinFields ind 0b010#3 adr ∧
    (exec (.lda ind adr) s = .next { s with regs := { s.regs with
      ar := s.effectiveAddress ind adr
      mar := s.mem.read (s.effectiveAddress ind adr)
      i := ind
      ac := s.mem.read (s.effectiveAddress ind adr) } })

/-- R152: ADD adds modulo 65536; E is the AND of the top bits before the addition, of AC and the operand in MAR, or of AC
and DR under ADD_E_OPERAND = DR. -/
def Obligations.AddResult : Prop :=
  ∀ (ind : Bool) (adr : Addr) (s : State),
    encode (.add ind adr) = joinFields ind 0b001#3 adr ∧
    exec (.add ind adr) s = .next { s with regs := { s.regs with
      ar := s.effectiveAddress ind adr
      mar := s.mem.read (s.effectiveAddress ind adr)
      i := ind
      ac := s.regs.ac + s.mem.read (s.effectiveAddress ind adr)
      e := if s.params.addEOperand = .mar then
          s.regs.ac.getLsbD 15 && (s.mem.read (s.effectiveAddress ind adr)).getLsbD 15
        else s.regs.ac.getLsbD 15 && s.regs.dr.getLsbD 15 } }

/-- STA stores AC at the effective address, records the old word, and leaves MAR at the old word (section 2, STA; MAR by
the spec's own decision D5); no word outside the address AR holds after decode changes. -/
def Obligations.StaResult : Prop :=
  ∀ (ind : Bool) (adr : Addr) (s : State),
    (exec (.sta ind adr) s = .next { s with
      mem := s.mem.write (s.effectiveAddress ind adr) s.regs.ac
      memw := some ⟨s.effectiveAddress ind adr, s.mem.read (s.effectiveAddress ind adr)⟩
      regs := { s.regs with
        ar := s.effectiveAddress ind adr
        mar := s.mem.read (s.effectiveAddress ind adr)
        i := ind } }) ∧
    (s.mem.wf = true → ∀ t, exec (.sta ind adr) s = .next t →
      t.mem.read (s.decodeOperand ind adr).regs.ar = s.regs.ac ∧
      ∀ b, b ≠ (s.decodeOperand ind adr).regs.ar → t.mem.read b = s.mem.read b)

/-- BUN puts the effective address in PC (section 2, BUN); the operand is read all the same. -/
def Obligations.BunResult : Prop :=
  ∀ (ind : Bool) (adr : Addr) (s : State),
    exec (.bun ind adr) s = .next { s with regs := { s.regs with
      ar := s.effectiveAddress ind adr
      mar := s.mem.read (s.effectiveAddress ind adr)
      i := ind
      pc := s.effectiveAddress ind adr } }

/-- BSA stores the zero-extended PC at the effective address and goes to the word after it (section 2, BSA; the zero
extension, the wrap and MAR by the spec's own decisions D3, D2, D5); no other word changes. -/
def Obligations.BsaResult : Prop :=
  ∀ (ind : Bool) (adr : Addr) (s : State),
    (exec (.bsa ind adr) s = .next { s with
      mem := s.mem.write (s.effectiveAddress ind adr) (s.regs.pc.setWidth 16)
      memw := some ⟨s.effectiveAddress ind adr, s.mem.read (s.effectiveAddress ind adr)⟩
      regs := { s.regs with
        ar := s.effectiveAddress ind adr + 1
        mar := s.mem.read (s.effectiveAddress ind adr)
        i := ind
        pc := s.effectiveAddress ind adr + 1 } }) ∧
    (s.mem.wf = true → ∀ t, exec (.bsa ind adr) s = .next t →
      t.mem.read (s.decodeOperand ind adr).regs.ar = s.regs.pc.setWidth 16 ∧
      ∀ b, b ≠ (s.decodeOperand ind adr).regs.ar → t.mem.read b = s.mem.read b)

/-- ISZ increments the word at the effective address, modulo 65536, and skips exactly when the old word was 0xFFFF
(section 2, ISZ; the wraps by the spec's own decision D2); no other word changes. -/
def Obligations.IszResult : Prop :=
  ∀ (ind : Bool) (adr : Addr) (s : State),
    (exec (.isz ind adr) s = .next { s with
      mem := s.mem.write (s.effectiveAddress ind adr) (s.mem.read (s.effectiveAddress ind adr) + 1)
      memw := some ⟨s.effectiveAddress ind adr, s.mem.read (s.effectiveAddress ind adr)⟩
      regs := { s.regs with
        ar := s.effectiveAddress ind adr
        mar := s.mem.read (s.effectiveAddress ind adr) + 1
        i := ind
        pc := if s.mem.read (s.effectiveAddress ind adr) = 0xFFFF then s.regs.pc + 1 else s.regs.pc } }) ∧
    (s.mem.wf = true → ∀ t, exec (.isz ind adr) s = .next t →
      t.mem.read (s.decodeOperand ind adr).regs.ar = s.mem.read (s.decodeOperand ind adr).regs.ar + 1 ∧
      ∀ b, b ≠ (s.decodeOperand ind adr).regs.ar → t.mem.read b = s.mem.read b)

/-! ### The register-reference instructions (42_register_reference.md) -/

/-- CLA, CLE and CME (section 2; their effects are general knowledge by the spec's own mark). -/
def Obligations.ClearResults : Prop :=
  ∀ s : State,
    exec .cla s = .next { s with regs := { s.regs with ar := 0x800, i := false, ac := 0 } } ∧
    exec .cle s = .next { s with regs := { s.regs with ar := 0x400, i := false, e := false } } ∧
    exec .cme s = .next { s with regs := { s.regs with ar := 0x100, i := false, e := !s.regs.e } }

/-- R173: CMA inverts all 16 bits of AC, `AC <- AC ^ 0xFFFF`, and leaves E; followed by INC it
negates AC. -/
def Obligations.CmaResult : Prop :=
  ∀ s : State,
    encode .cma = 0x7200 ∧
    exec .cma s = .next { s with regs := { s.regs with ar := 0x200, i := false, ac := s.regs.ac ^^^ 0xFFFF } } ∧
    ∀ t u, exec .cma s = .next t → exec .inc t = .next u → u.regs.ac = 0 - s.regs.ac

/-- CIR and CIL move every bit of the 17-bit ring of E and AC one place (section 2; the directions by the spec's own
decision D13). -/
def Obligations.CirculateResults : Prop :=
  ∀ s : State,
    (exec .cir s = .next { s with regs := { s.regs with
      ar := 0x080
      i := false
      ac := BitVec.cons s.regs.e (s.regs.ac.extractLsb' 1 15)
      e := s.regs.ac.getLsbD 0 } }) ∧
    (exec .cil s = .next { s with regs := { s.regs with
      ar := 0x040
      i := false
      ac := BitVec.concat (s.regs.ac.extractLsb' 0 15) s.regs.e
      e := s.regs.ac.getLsbD 15 } })

/-- CIL after CIR, and CIR after CIL, restore AC and E; seventeen CIRs in a row, and seventeen CILs, complete and leave
everything as it was but the AR and I that decode writes (section 2, the corner cases of CIR and CIL; the directions by the
spec's own decision D13). -/
def Obligations.CirculatesRestore : Prop :=
  (∀ s t u : State, exec .cir s = .next t → exec .cil t = .next u →
    u.regs.ac = s.regs.ac ∧ u.regs.e = s.regs.e) ∧
  (∀ s t u : State, exec .cil s = .next t → exec .cir t = .next u →
    u.regs.ac = s.regs.ac ∧ u.regs.e = s.regs.e) ∧
  (∀ s : State,
    execTimes .cir 17 s = .next { s with regs := { s.regs with ar := 0x080, i := false } } ∧
    execTimes .cil 17 s = .next { s with regs := { s.regs with ar := 0x040, i := false } })

/-- INC adds 1 to AC modulo 65536; E changes only under INC_SETS_E (section 2, INC; general knowledge, and the spec's own
decision D12). -/
def Obligations.IncResult : Prop :=
  ∀ s : State,
    exec .inc s = .next { s with regs := { s.regs with
      ar := 0x020
      i := false
      ac := s.regs.ac + 1
      e := if s.params.incSetsE = true then decide (s.regs.ac = 0xFFFF) else s.regs.e } }

/-- SPA, SNA, SZA and SZE add 1 to PC when their condition on AC or E holds (section 2; general knowledge by the spec's
own mark). The sign is read as AC below or from 0x8000 on. -/
def Obligations.AccumulatorSkipResults : Prop :=
  ∀ s : State,
    (exec .spa s = .next { s with regs := { s.regs with
      ar := 0x010, i := false, pc := if s.regs.ac.toNat < 0x8000 then s.regs.pc + 1 else s.regs.pc } }) ∧
    (exec .sna s = .next { s with regs := { s.regs with
      ar := 0x008, i := false, pc := if 0x8000 ≤ s.regs.ac.toNat then s.regs.pc + 1 else s.regs.pc } }) ∧
    (exec .sza s = .next { s with regs := { s.regs with
      ar := 0x004, i := false, pc := if s.regs.ac = 0 then s.regs.pc + 1 else s.regs.pc } }) ∧
    (exec .sze s = .next { s with regs := { s.regs with
      ar := 0x002, i := false, pc := if s.regs.e = false then s.regs.pc + 1 else s.regs.pc } })

/-- The execute phase of HLT sets H (section 2, HLT; H by the spec's own decision D4). The park is `HltStepParks`. -/
def Obligations.HltResult : Prop :=
  ∀ s : State, exec .hlt s = .next { s with regs := { s.regs with ar := 0x001, i := false, h := true } }

/-- An unassigned word performs decode's transfers and nothing else (section 3). -/
def Obligations.UnassignedResult : Prop :=
  ∀ (group : Bool) (low : Addr) (s : State),
    exec (.unassigned group low) s = .next { s with regs := { s.regs with ar := low, i := group } }

/-! ### The input/output instructions (43_input_output.md) -/

/-- INP copies INPR to AC, keeping or zeroing the high byte as INP_HIGH says, and clears FGI (section 2, INP; the high byte
by the spec's own decision D10). -/
def Obligations.InpResult : Prop :=
  ∀ s : State,
    exec .inp s = .next { s with regs := { s.regs with
      ar := 0x800
      i := true
      ac := if s.params.inpHigh = .keep then (s.regs.ac &&& 0xFF00) ||| s.regs.inpr.setWidth 16 else s.regs.inpr.setWidth 16
      fgi := false } }

/-- OUT copies the low byte of AC to OUTR and clears FGO under OUT_CLEARS_FGO (section 2, OUT; the spec's own decision
D11). -/
def Obligations.OutResult : Prop :=
  ∀ s : State,
    exec .out s = .next { s with regs := { s.regs with
      ar := 0x400
      i := true
      outr := s.regs.ac.setWidth 8
      fgo := if s.params.outClearsFgo = true then false else s.regs.fgo } }

/-- SKI and SKO add 1 to PC when their flag is 1; ION sets IEN and IOF clears it (section 2; general knowledge by the
spec's own mark). -/
def Obligations.FlagInstructionResults : Prop :=
  ∀ s : State,
    (exec .ski s = .next { s with regs := { s.regs with
      ar := 0x200, i := true, pc := if s.regs.fgi = true then s.regs.pc + 1 else s.regs.pc } }) ∧
    (exec .sko s = .next { s with regs := { s.regs with
      ar := 0x100, i := true, pc := if s.regs.fgo = true then s.regs.pc + 1 else s.regs.pc } }) ∧
    exec .ion s = .next { s with regs := { s.regs with ar := 0x080, i := true, ien := true } } ∧
    exec .iof s = .next { s with regs := { s.regs with ar := 0x040, i := true, ien := false } }

/-! ### Which instruction writes which register (10_state.md) -/

/-- Each register is written by the instructions the register rules name and by no other (sections 2 to 6;
40_instruction_cycle.md sections 5 and 9; H, FGO by OUT and E by INC by the spec's own decisions D4, D11 and D12). AC, E,
PC, MAR, IEN, FGI, FGO, OUTR and H change under the named instructions only; every instruction writes I with bit 15 of its
word and, but for BSA's increment, AR with the low 12 bits of its word or the effective address; no instruction writes IR,
DR, TR, R or INPR. (The writes of the latch, fetch, the recomputation of R, the park and the interrupt-service cycle are
those of the step's statements.) -/
def Obligations.RegisterWriters : Prop :=
  ∀ (i : Instr) (s t : State), exec i s = .next t →
    ((∀ ind adr, i ≠ .and ind adr ∧ i ≠ .add ind adr ∧ i ≠ .lda ind adr) →
      i ∉ [.cla, .cma, .cir, .cil, .inc, .inp] → t.regs.ac = s.regs.ac) ∧
    ((∀ ind adr, i ≠ .add ind adr) → i ∉ [.cle, .cme, .cir, .cil] → (i = .inc → s.params.incSetsE = false) →
      t.regs.e = s.regs.e) ∧
    ((∀ ind adr, i ≠ .bun ind adr ∧ i ≠ .bsa ind adr ∧ i ≠ .isz ind adr) →
      i ∉ [.spa, .sna, .sza, .sze, .ski, .sko] → t.regs.pc = s.regs.pc) ∧
    (opcodeField (encode i) = 7 → t.regs.mar = s.regs.mar) ∧
    (i ≠ .ion → i ≠ .iof → t.regs.ien = s.regs.ien) ∧
    (i ≠ .inp → t.regs.fgi = s.regs.fgi) ∧
    (i ≠ .out → t.regs.fgo = s.regs.fgo ∧ t.regs.outr = s.regs.outr) ∧
    (i ≠ .hlt → t.regs.h = s.regs.h) ∧
    t.regs.i = indirectBit (encode i) ∧
    ((∀ ind adr, i ≠ .bsa ind adr) →
      t.regs.ar = if opcodeField (encode i) = 7 then addressField (encode i)
        else s.effectiveAddress (indirectBit (encode i)) (addressField (encode i))) ∧
    t.regs.ir = s.regs.ir ∧ t.regs.dr = s.regs.dr ∧ t.regs.tr = s.regs.tr ∧ t.regs.r = s.regs.r ∧
    t.regs.inpr = s.regs.inpr

/-! ### The E flag, calls and returns -/

/-- E after ADD differs from the true carry out of bit 15 exactly when the top bits of the operands differ and the sum wraps
(70_reset_and_hazards.md section 3, with ADD_E_OPERAND = MAR; that sums wrap is the spec's own decision D2). -/
def Obligations.AddFlagAgainstCarry : Prop :=
  ∀ (ind : Bool) (adr : Addr) (s t : State), s.params.addEOperand = .mar → exec (.add ind adr) s = .next t →
    (t.regs.e ≠ decide (65536 ≤ s.regs.ac.toNat + t.regs.mar.toNat) ↔
      s.regs.ac.getLsbD 15 ≠ t.regs.mar.getLsbD 15 ∧ 65536 ≤ s.regs.ac.toNat + t.regs.mar.toNat)

/-- BUN indirect through the word BSA stored to returns to the address BSA was to continue at (41_memory_reference.md
section 2, BUN and BSA; the zero extension of the stored PC by the spec's own decision D3). -/
def Obligations.SubroutineReturns : Prop :=
  ∀ (ind : Bool) (adr : Addr) (s t u v : State), s.mem.wf = true → exec (.bsa ind adr) s = .next t → u.mem = t.mem →
    exec (.bun true (s.effectiveAddress ind adr)) u = .next v → v.regs.pc = s.regs.pc

/-- BUN 0 I, decoded from 0xC000, goes back to the address the interrupt-service cycle saved, and leaves IEN alone
(60_exceptions.md section 4, the return; the zero extension of the saved PC by the spec's own decision D3). -/
def Obligations.InterruptReturns : Prop :=
  ∀ (x : Config.HostInputs) (s t u v : State), s.mem.wf = true → s.acceptsStep = true → s.regs.r = true →
    runCommand (.step x) s = .next t → u.mem = t.mem → exec (decode 0xC000) u = .next v →
    v.regs.pc = s.regs.pc ∧ v.regs.ien = u.regs.ien

/-! ### The step (40_instruction_cycle.md) -/

/-- A STEP RUNS THE DECODED INSTRUCTION. An accepted STEP with R = 0, at a word that decodes to the well-formed instruction
`i`, is: the latch, fetch, `exec i`, R recomputed, PC parked on HLT, the frame test, the StepOutcome (section 1). -/
def Obligations.StepRunsDecodedInstruction : Prop :=
  ∀ (x : Config.HostInputs) (rest : List Command) (i : Instr) (s t : State), s.NormalStepPending x rest →
    decode (s.mem.read s.regs.pc) = i → i.wf = true →
    exec i ({ s with host := rest }.latch x).fetch = .next t →
    step s = .next (t.recomputeR.parkOnHlt.finishStep s.regs.pc s.regs.h false)

/-- An accepted STEP with R = 1 is the interrupt-service cycle and nothing else: PC saved at address 0, PC = 1, IEN, R and
H cleared, the inputs latched, the frame test with memw = (0, old M[0]) (60_exceptions.md section 3; the zero extension, H,
the latch and the registers left alone by the spec's own decisions D3, D4, D19, D6). -/
def Obligations.InterruptServiceStep : Prop :=
  ∀ (x : Config.HostInputs) (rest : List Command) (s : State), s.StepPending x rest → s.regs.r = true →
    ∃ g : Registers,
      g = { s.regs with fgi := x.fgi, fgo := x.fgo, inpr := x.inpr, pc := 1, ien := false, r := false, h := false } ∧
      step s = .next { s with
        mem := s.mem.write 0 (s.regs.pc.setWidth 16)
        regs := g
        hist := if s.regs.pc = 1 ∧ s.regs.h = true then s.hist else ⟨g, some ⟨0, s.mem.read 0⟩⟩ :: s.hist
        memw := none
        host := rest
        reply := some (.stepOutcome g true false) }

/-- Every step answers a next state, and no command changes the parameters: nothing faults and nothing is refused
(60_exceptions.md section 1; that the Host goes on stepping when no command is pending, and that the parameters stand in
State, are the model's choices, notes/assumptions/2.md and 4.md). -/
def Obligations.StepAlwaysAnswersNext : Prop := ∀ s : State, ∃ t, step s = .next t ∧ t.params = s.params

/-- R138: at the end of every normal cycle R is IEN and (FGI or FGO), with the values execute left, which stay; the
interrupt-service cycle does not perform this transfer: it clears R and IEN, whatever the flags. -/
def Obligations.RequestRecomputed : Prop :=
  (∀ (x : Config.HostInputs) (rest : List Command) (s t u : State), s.NormalStepPending x rest →
    exec (decode (s.mem.read s.regs.pc)) ({ s with host := rest }.latch x).fetch = .next u → step s = .next t →
    t.regs.ien = u.regs.ien ∧ t.regs.fgi = u.regs.fgi ∧ t.regs.fgo = u.regs.fgo ∧
    t.regs.r = (u.regs.ien && (u.regs.fgi || u.regs.fgo))) ∧
  (∀ (x : Config.HostInputs) (rest : List Command) (s t : State), s.StepPending x rest → s.regs.r = true →
    step s = .next t → t.regs.r = false ∧ t.regs.ien = false)

/-- After a normal cycle IR is the word fetched and I its bit 15, and after an opcode-7 word AR is its low 12 bits and MAR
the word itself (sections 4 and 5). -/
def Obligations.DecodeTransfers : Prop :=
  ∀ (x : Config.HostInputs) (rest : List Command) (s t : State), s.NormalStepPending x rest → step s = .next t →
    t.regs.ir = s.mem.read s.regs.pc ∧ t.regs.i = (s.mem.read s.regs.pc).getLsbD 15 ∧
    ((s.mem.read s.regs.pc).extractLsb' 12 3 = 7 →
      t.regs.ar = (s.mem.read s.regs.pc).setWidth 12 ∧ t.regs.mar = s.mem.read s.regs.pc)

/-- A whole step at an opcode-7 word that is none of the 18 patterns: the common effects of the normal cycle and nothing
else, and a StepOutcome that does not mark the word (42_register_reference.md section 3; 50_host_and_history.md sections 2
and 3, the frame and the outcome; PC plus 1 modulo 4096, the latch and the outcome's fields by the spec's own decisions D2,
D19 and D15). -/
def Obligations.UnassignedStep : Prop :=
  ∀ (x : Config.HostInputs) (rest : List Command) (w : Word) (s : State), s.NormalStepPending x rest →
    s.mem.read s.regs.pc = w → w.extractLsb' 12 3 = 7 →
    w ∉ [0x7800, 0x7400, 0x7200, 0x7100, 0x7080, 0x7040, 0x7020, 0x7010, 0x7008, 0x7004, 0x7002, 0x7001,
         0xF800, 0xF400, 0xF200, 0xF100, 0xF080, 0xF040] →
    ∃ t, step s = .next t ∧ t.mem = s.mem ∧
      t.regs = { s.regs with
        fgi := x.fgi, fgo := x.fgo, inpr := x.inpr, ir := w, mar := w, pc := s.regs.pc + 1, ar := w.setWidth 12,
        i := w.getLsbD 15, r := s.regs.ien && (x.fgi || x.fgo) } ∧
      t.hist = ⟨t.regs, none⟩ :: s.hist ∧
      t.reply = some (.stepOutcome t.regs false s.regs.h)

/-- A whole step at HLT ends with PC where it was, H = 1 and R recomputed; the first one pushes a frame, one taken while
parked does not (sections 8 and 9, and 42_register_reference.md section 2, HLT; H and the wrap by the spec's own decisions
D4 and D2). -/
def Obligations.HltStepParks : Prop :=
  ∀ (x : Config.HostInputs) (rest : List Command) (s : State), s.NormalStepPending x rest →
    s.mem.read s.regs.pc = 0x7001 →
    ∃ t, step s = .next t ∧ t.mem = s.mem ∧
      t.regs = { s.regs with
        fgi := x.fgi, fgo := x.fgo, inpr := x.inpr, ir := 0x7001, mar := 0x7001, ar := 0x001, i := false, h := true,
        r := s.regs.ien && (x.fgi || x.fgo) } ∧
      t.hist = if s.regs.h = true then s.hist else ⟨t.regs, none⟩ :: s.hist

/-- The flags and INPR of the previous step are lost: an accepted STEP does not depend on them (section 2, and
70_reset_and_hazards.md section 3, the reload of FGI and FGO; that interrupt-service steps and steps after a halt latch the
inputs too is the spec's own decision D19). -/
def Obligations.OldInputsDoNotMatter : Prop :=
  ∀ (x : Config.HostInputs) (rest : List Command) (fgi fgo : Bool) (inpr : Byte) (s : State), s.StepPending x rest →
    step { s with regs := { s.regs with fgi := fgi, fgo := fgo, inpr := inpr } } = step s

/-- The latency of an interrupt: a step that ends with IEN = 1 and a flag at 1 ends with R = 1, and the next STEP saves the
PC that step left and enters at address 1 (60_exceptions.md section 2, the taking of the interrupt, and section 3; the zero
extension of the saved PC by the spec's own decision D3). -/
def Obligations.InterruptFollowsRequest : Prop :=
  ∀ (x y : Config.HostInputs) (rest : List Command) (s t u : State), s.mem.wf = true →
    s.NormalStepPending x (.step y :: rest) → step s = .next t → t.regs.ien = true →
    (t.regs.fgi || t.regs.fgo) = true → t.acceptsStep = true → step t = .next u →
    t.regs.r = true ∧ u.mem.read 0 = t.regs.pc.setWidth 16 ∧ u.regs.pc = 1 ∧ u.regs.ien = false ∧ u.regs.r = false

/-- With IEN = 0 and R = 0, a STEP at anything but ION leaves them so: no interrupt can be taken before the next ION
(43_input_output.md section 2, IOF; 60_exceptions.md section 4, nesting; that ION is the instruction that sets IEN is
general knowledge by the spec's own mark). -/
def Obligations.DisabledUntilIon : Prop :=
  ∀ (x : Config.HostInputs) (s t : State), s.regs.ien = false → s.regs.r = false →
    decode (s.mem.read s.regs.pc) ≠ .ion → runCommand (.step x) s = .next t →
    t.regs.ien = false ∧ t.regs.r = false

/-- Parked on a HLT with IEN = 0 and R = 0, the machine stays halted under any sequence of STEPs: memory, history, PC and
H stay (60_exceptions.md section 7, the halt; H and the steps after a halt by the spec's own decisions D4 and D7). -/
def Obligations.HaltIsPermanentWhenDisabled : Prop :=
  ∀ (xs : List Config.HostInputs) (s t : State), s.regs.h = true → s.regs.ien = false → s.regs.r = false →
    s.mem.read s.regs.pc = 0x7001 → runAll (xs.map Command.step) s = .next t →
    t.regs.h = true ∧ t.regs.pc = s.regs.pc ∧ t.regs.ien = false ∧ t.regs.r = false ∧ t.mem = s.mem ∧ t.hist = s.hist

/-- The StepOutcome of an accepted STEP: the registers after it, whether R was 1 before it, and H after it
(50_host_and_history.md section 2; the fields by the spec's own decision D15). -/
def Obligations.StepOutcomeReported : Prop :=
  ∀ (x : Config.HostInputs) (rest : List Command) (s t : State), s.StepPending x rest → step s = .next t →
    t.reply = some (.stepOutcome t.regs s.regs.r t.regs.h)

/-! ### Memory and the history (20_memory.md, 50_host_and_history.md) -/

/-- R66: a step writes at most one memory word; every word but the one its diff names, computed from the state before
the step, reads as before. -/
def Obligations.StepWritesAtMostOneWord : Prop :=
  ∀ (x : Config.HostInputs) (rest : List Command) (b : Addr) (s t : State), s.mem.wf = true → s.StepPending x rest →
    step s = .next t → (∀ d, s.stepDiff = some d → b ≠ d.address) → t.mem.read b = s.mem.read b

/-- R208, R209 and R210: an accepted STEP pushes a frame exactly when PC changed or H was 0 before it; the frame holds the
registers after the step and the address and prior value of the word the step wrote, if it wrote one. -/
def Obligations.FramePushed : Prop :=
  ∀ (x : Config.HostInputs) (rest : List Command) (s t : State), s.StepPending x rest → step s = .next t →
    t.hist = if t.regs.pc ≠ s.regs.pc ∨ s.regs.h = false then ⟨t.regs, s.stepDiff⟩ :: s.hist else s.hist

/-- R214: STEP_BACK pops the newest frame, restores the registers of the frame below it and the word the popped frame
recorded; its result is that snapshot. -/
def Obligations.StepBackRestores : Prop :=
  ∀ (rest : List Command) (f g : Frame) (older : List Frame) (s : State), s.host = .stepBack :: rest → s.loaded = true →
    s.hist = f :: g :: older →
    step s = .next { s with
      hist := g :: older
      regs := g.registers
      mem := match f.memoryWrite with
        | none => s.mem
        | some d => s.mem.write d.address d.prior
      host := rest
      reply := some (.snapshot g.registers) }

/-- R215: STEP_BACK is refused with StateError, and nothing changes, when HIST holds only the reset frame and when
LOADED = 0. -/
def Obligations.StepBackRefused : Prop :=
  ∀ (rest : List Command) (s : State), s.host = .stepBack :: rest → (s.hist = [resetFrame] ∨ s.loaded = false) →
    step s = .next { s with host := rest, reply := some .stateError }

/-- THE INVERSE LAW: after N STEPs that each pushed a frame, from a state whose registers are those of the newest frame,
N STEP_BACKs restore memory, registers and history bit for bit (section 4, the inverse law; that H is one of the registers
a snapshot holds is the spec's own decision D4). -/
def Obligations.StepBacksInvertSteps : Prop :=
  ∀ (xs : List Config.HostInputs) (f : Frame) (older : List Frame) (s t : State), s.mem.wf = true →
    s.hist = f :: older → s.regs = f.registers → EveryStepPushes xs s t →
    ∃ u, runAll (List.replicate xs.length Command.stepBack) t = .next u ∧
      u.mem = s.mem ∧ u.regs = s.regs ∧ u.hist = s.hist

/-! ### The Host commands (50_host_and_history.md) -/

/-- R203: before the first successful load a STEP is refused with StateError and nothing changes. -/
def Obligations.StepRefusedBeforeLoad : Prop :=
  ∀ (x : Config.HostInputs) (rest : List Command) (s : State), s.host = .step x :: rest → s.loaded = false →
    step s = .next { s with host := rest, reply := some .stateError }

/-- While the history holds HIST_DEPTH frames every STEP is refused with StateError before the latch
(93_implementation_defined.md U9, the spec's own decision D8). -/
def Obligations.StepRefusedWhenHistoryFull : Prop :=
  ∀ (x : Config.HostInputs) (rest : List Command) (depth : Nat) (s : State), s.host = .step x :: rest →
    s.params.histDepth = some depth → depth ≤ s.hist.length →
    step s = .next { s with host := rest, reply := some .stateError }

/-- The text-level STEP: inputs written as one, one and eight binary digits, the most significant first, are the typed
STEP; malformed ones are refused with InputValidationError in a state that accepts a STEP, and nothing changes (section 2;
the order of the digits by the spec's own decision D14). -/
def Obligations.TextStepValidated : Prop :=
  (∀ (fgi fgo b7 b6 b5 b4 b3 b2 b1 b0 : Bool) (s : State),
    runCommand (.stepText [if fgi then '1' else '0'] [if fgo then '1' else '0']
      ([b7, b6, b5, b4, b3, b2, b1, b0].map fun b => if b then '1' else '0')) s =
    runCommand (.step ⟨fgi, fgo, BitVec.ofNat 8 (128 * b7.toNat + 64 * b6.toNat + 32 * b5.toNat + 16 * b4.toNat +
      8 * b3.toNat + 4 * b2.toNat + 2 * b1.toNat + b0.toNat)⟩) s) ∧
  (∀ (fgi fgo inpr : List Char) (s : State), s.acceptsStep = true →
    (¬(fgi = ['0'] ∨ fgi = ['1']) ∨ ¬(fgo = ['0'] ∨ fgo = ['1']) ∨ inpr.length ≠ 8 ∨ ∃ c ∈ inpr, c ≠ '0' ∧ c ≠ '1') →
    runCommand (.stepText fgi fgo inpr) s = .next { s with reply := some .inputValidationError })

/-- R201: LOAD_OK, in any state, gives the image's words, all-zero registers and flags, the single reset frame and
LOADED = 1, and keeps nothing of an earlier run but the parameters. -/
def Obligations.LoadResets : Prop :=
  ∀ (image : Memory) (rest : List Command) (s : State), s.host = .loadOk image :: rest →
    ∃ t, step s = .next t ∧ (∀ a, t.mem.read a = image.read a) ∧ t.regs = Registers.zero ∧
      t.hist = [⟨Registers.zero, none⟩] ∧ t.loaded = true ∧ t.memw = none ∧ t.params = s.params ∧ t.host = rest ∧
      t.reply = some .ok

/-- Loading images with the same 4096 words, from any two states, leaves the same memory, registers, history and LOADED
(70_reset_and_hazards.md section 1, reset is idempotent and complete). -/
def Obligations.LoadIsComplete : Prop :=
  ∀ (image image' : Memory) (s s' t t' : State), (∀ a, image.read a = image'.read a) →
    runCommand (.loadOk image) s = .next t → runCommand (.loadOk image') s' = .next t' →
    t.mem = t'.mem ∧ t.regs = t'.regs ∧ t.hist = t'.hist ∧ t.loaded = t'.loaded

/-- LOAD_FAIL replaces memory by the image's words and changes nothing else (section 1; the spec's own decision D16). -/
def Obligations.FailedLoadKeepsRegisters : Prop :=
  ∀ (image : Memory) (failure : SyntaxFailure) (rest : List Command) (s : State),
    s.host = .loadFail image failure :: rest →
    ∃ m : Memory, (∀ a, m.read a = image.read a) ∧
      step s = .next { s with mem := m, host := rest, reply := some (.syntaxError failure) }

/-- R219: DUMP_MEM returns the words of M and DUMP_REGS the register snapshot, in any state, and both change nothing. -/
def Obligations.DumpsChangeNothing : Prop :=
  ∀ (rest : List Command) (s : State),
    (s.host = .dumpMem :: rest → step s = .next { s with host := rest, reply := some (.memory s.mem) }) ∧
    (s.host = .dumpRegs :: rest → step s = .next { s with host := rest, reply := some (.snapshot s.regs) })

/-! ### The assembler (31_assembler.md) -/

/-- Each of the 18 fixed mnemonics alone assembles to its word, whatever the symbol table, the decoder reads its instruction
from that word, and with a space after it, and an operand or none, the line is an error. The triples are written out from
31_assembler.md section 4 and 30_encoding.md section 3, not taken from the model's table. -/
def Obligations.FixedMnemonicsAssemble : Prop :=
  ∀ (table : List SymbolBinding) (operand : List Char) (row : List Char × Word × Instr),
    row ∈ [(['C', 'L', 'A'], 0x7800, .cla), (['C', 'L', 'E'], 0x7400, .cle), (['C', 'M', 'A'], 0x7200, .cma),
           (['C', 'M', 'E'], 0x7100, .cme), (['C', 'I', 'R'], 0x7080, .cir), (['C', 'I', 'L'], 0x7040, .cil),
           (['I', 'N', 'C'], 0x7020, .inc), (['S', 'P', 'A'], 0x7010, .spa), (['S', 'N', 'A'], 0x7008, .sna),
           (['S', 'Z', 'A'], 0x7004, .sza), (['S', 'Z', 'E'], 0x7002, .sze), (['H', 'L', 'T'], 0x7001, .hlt),
           (['I', 'N', 'P'], 0xF800, .inp), (['O', 'U', 'T'], 0xF400, .out), (['S', 'K', 'I'], 0xF200, .ski),
           (['S', 'K', 'O'], 0xF100, .sko), (['I', 'O', 'N'], 0xF080, .ion), (['I', 'O', 'F'], 0xF040, .iof)] →
    encodeLine table row.1 = .ok row.2.1 ∧ decode row.2.1 = row.2.2 ∧
    ∀ w, encodeLine table (row.1 ++ ' ' :: operand) ≠ .ok w

/-- A line of a memory-reference mnemonic and a bound symbol of one to three characters assembles to a word whose bit 15 is
1 exactly with the suffix I, whose bits 14:12 are the mnemonic's opcode and whose low 12 bits are the address; the decoder
reads the mnemonic's instruction from that word. With an unbound symbol the line is an undefined-label error, and any other
operand emits no word (section 4; 30_encoding.md section 5). The rows are written out from 31_assembler.md section 4, not
taken from the model's table. -/
def Obligations.MemoryReferenceAssembles : Prop :=
  ∀ (table : List SymbolBinding) (row : List Char × BitVec 3 × (Bool → Addr → Instr)),
    row ∈ [(['A', 'N', 'D'], 0b000#3, Instr.and), (['A', 'D', 'D'], 0b001#3, Instr.add),
           (['L', 'D', 'A'], 0b010#3, Instr.lda), (['S', 'T', 'A'], 0b011#3, Instr.sta),
           (['B', 'U', 'N'], 0b100#3, Instr.bun), (['B', 'S', 'A'], 0b101#3, Instr.bsa),
           (['I', 'S', 'Z'], 0b110#3, Instr.isz)] →
    (∀ (name : List Char) (ind : Bool), 1 ≤ name.length → name.length ≤ 3 →
      (∀ c ∈ name, ('0' ≤ c ∧ c ≤ '9') ∨ ('A' ≤ c ∧ c ≤ 'Z') ∨ c = '-') →
      (∀ address, ⟨name, address⟩ ∈ table → (∀ b ∈ table, b.name = name → b.address = address) → address < 4096 →
        ∃ w, encodeLine table (row.1 ++ ' ' :: name ++ if ind then [' ', 'I'] else []) = .ok w ∧
          w.getLsbD 15 = ind ∧ w.extractLsb' 12 3 = row.2.1 ∧ w.extractLsb' 0 12 = BitVec.ofNat 12 address ∧
          decode w = row.2.2 ind (BitVec.ofNat 12 address)) ∧
      ((∀ b ∈ table, b.name ≠ name) →
        encodeLine table (row.1 ++ ' ' :: name ++ if ind then [' ', 'I'] else []) = .error .undefinedLabel)) ∧
    (∀ (operand : List Char) (w : Word), encodeLine table (row.1 ++ ' ' :: operand) = .ok w →
      ∃ (name : List Char) (ind : Bool), operand = name ++ (if ind then [' ', 'I'] else []) ∧
        1 ≤ name.length ∧ name.length ≤ 3 ∧ ∃ b ∈ table, b.name = name)

/-- A HEX line emits a word exactly when its operand is one to four upper-case hexadecimal digits, and a DEC line exactly
when its operand is the decimal writing of an integer from -32768 to 32767; the word is the value of the digits, in two's
complement for DEC (section 4). The digits and their values are written out or the library's, not the model's parser. That
longer HEX numerals with leading zeros, DEC -0 and leading zeros on DEC emit no word is the model's choice,
notes/assumptions/12.md. -/
def Obligations.LiteralsAssemble : Prop :=
  (∀ (table : List SymbolBinding) (text : List Char) (w : Word),
    encodeLine table ('H' :: 'E' :: 'X' :: ' ' :: text) = .ok w ↔
      ∃ digits : List Nat, 1 ≤ digits.length ∧ digits.length ≤ 4 ∧ (∀ d ∈ digits, d < 16) ∧
        text = digits.map (fun d =>
          ['0', '1', '2', '3', '4', '5', '6', '7', '8', '9', 'A', 'B', 'C', 'D', 'E', 'F'].getD d ' ') ∧
        w = BitVec.ofNat 16 (Nat.ofDigits 16 digits.reverse)) ∧
  (∀ (table : List SymbolBinding) (text : List Char) (w : Word),
    encodeLine table ('D' :: 'E' :: 'C' :: ' ' :: text) = .ok w ↔
      ∃ z : Int, -32768 ≤ z ∧ z ≤ 32767 ∧
        text = (if z < 0 then ['-'] else []) ++ Nat.toDigits 10 z.natAbs ∧ w = BitVec.ofInt 16 z)

/-- R118: assembling the same source twice, from any two states, leaves the same memory and a history of the one reset
frame both times, when the assembly succeeds. -/
def Obligations.AssemblyIdempotent : Prop :=
  ∀ (source : List SourceLine) (image : Memory) (symbols : List SymbolBinding) (rest rest' : List Command)
    (s s' : State), assembleSource source = .success image symbols →
    s.host = .assemble source :: rest → s'.host = .assemble source :: rest' →
    ∃ t t', step s = .next t ∧ step s' = .next t' ∧ t.mem = t'.mem ∧ (∀ a, t.mem.read a = image.read a) ∧
      t.regs = Registers.zero ∧ t'.regs = Registers.zero ∧ t.hist = [resetFrame] ∧ t'.hist = [resetFrame]

/-- A failed assembly replaces memory by the partial image, all-zero if pass 1 failed, and keeps registers, history and
LOADED (sections 1 and 5). -/
def Obligations.FailedAssemblyKeepsRegisters : Prop :=
  ∀ (source : List SourceLine) (image : Memory) (failure : SyntaxFailure) (rest : List Command) (s : State),
    assembleSource source = .failed image failure → s.host = .assemble source :: rest →
    step s = .next { s with mem := image, host := rest, reply := some (.syntaxError failure) } ∧
    ((∃ f, pass1 source 0 0 [] = .error f) → ∀ a, image.read a = 0)

/-! ### Reset and invariants -/

/-- The state after reset with the all-zero image (10_state.md section 9; H by the spec's own decision D4; that State.reset
holds the all-zero image is the model's choice, notes/assumptions/8.md). -/
def Obligations.ResetState : Prop :=
  (∀ a, State.reset.mem.read a = 0) ∧
  State.reset.regs = ⟨0, 0, 0, 0, 0, 0, 0, false, false, false, false, false, false, 0, 0, false⟩ ∧
  State.reset.loaded = true ∧ State.reset.hist = [⟨State.reset.regs, none⟩]

/-- The invariant holds after reset. -/
def Obligations.ResetHasInvariant : Prop := State.reset.Inv

/-- Every step keeps the invariant: canonical memory, no diff left over, DR = 0 and TR = 0 in the registers and in every
frame, and the reset frame as the oldest frame (10_state.md section 10). The invariant holds in power-on states too. -/
def Obligations.StepKeepsInvariant : Prop := ∀ s t : State, s.Inv → step s = .next t → t.Inv

/-- In every state reachable from a successful load by STEP and STEP_BACK, H = 1 means that PC is at a HLT
(10_state.md section 10; H by the spec's own decision D4). The step lemma is `StepKeepsHistoryInvariant`. -/
def Obligations.HaltedMeansParked : Prop :=
  ∀ s : State, Reachable s → s.regs.h = true → s.mem.read s.regs.pc = 0x7001

/-- In every such state the newest frame's registers are the current ones, except that frame-less steps may have changed
FGI, FGO, INPR and R, and a frame-less interrupt taken at address 1 also IEN and H (50_host_and_history.md section 3; H and
the steps after a halt by the spec's own decisions D4 and D7). The step lemma is `StepKeepsHistoryInvariant`. -/
def Obligations.NewestFrameAgrees : Prop :=
  ∀ s : State, Reachable s → ∃ f older, s.hist = f :: older ∧ s.AgreesWith f

/-- Every command but a failed load keeps the invariant of the halt and the history: memory is canonical; H = 1 means that
PC is at a HLT whose registers these are; the same holds for every frame over the memory undone down to it, and a frame
above a halted one not parked at address 1 recorded the interrupt's write; the newest frame agrees with the registers
(10_state.md section 10; 50_host_and_history.md sections 3 and 4; H and the steps after a halt by the spec's own decisions
D4 and D7). -/
def Obligations.StepKeepsHistoryInvariant : Prop :=
  ∀ s t : State, s.HistoryInv → s.NoFailedLoadNext → step s = .next t → t.HistoryInv

/-- A successful load, in any state, leaves a state with that invariant, and State.reset has it (10_state.md section 9). -/
def Obligations.LoadedStateHasHistoryInvariant : Prop :=
  (∀ (image : Memory) (s t : State), runCommand (.loadOk image) s = .next t → t.HistoryInv) ∧ State.reset.HistoryInv
end

