-- ==== Sys2Proof/Laws/Memory.lean ====
section
/-! SUPPORT. The laws of memory: what a read sees after a write, that every memory operation keeps the canonical form,
and that canonical memories with the same words are the same data. -/

namespace Sys2Proof.Machine

/-! ### Lists of words -/

theorem cellsWf_cons {lo a : Nat} {v : Word} {rest : List WordCell} :
    cellsWf lo ((a, v) :: rest) = true ↔ lo ≤ a ∧ a < Config.memWords ∧ v ≠ 0#16 ∧ cellsWf (a + 1) rest = true := by
  simp [cellsWf, and_assoc]

theorem cellsWf_mono {lo lo' : Nat} {cells : List WordCell} (h : lo' ≤ lo) (wf : cellsWf lo cells = true) :
    cellsWf lo' cells = true := by
  cases cells with
  | nil => rfl
  | cons c rest =>
    obtain ⟨hle, hlt, hv, hrest⟩ := cellsWf_cons.mp wf
    exact cellsWf_cons.mpr ⟨h.trans hle, hlt, hv, hrest⟩

theorem readCells_below {lo a : Nat} {cells : List WordCell} (wf : cellsWf lo cells = true) (h : a < lo) :
    readCells cells a = 0#16 := by
  induction cells generalizing lo with
  | nil => rfl
  | cons c rest ih =>
    obtain ⟨hle, -, -, hrest⟩ := cellsWf_cons.mp wf
    rw [readCells, if_neg (by omega)]
    exact ih hrest (by omega)

theorem writeCells_wf {lo a : Nat} {v : Word} {cells : List WordCell} (wf : cellsWf lo cells = true) (hlo : lo ≤ a)
    (ha : a < Config.memWords) : cellsWf lo (writeCells cells a v) = true := by
  induction cells generalizing lo with
  | nil => by_cases hv : v = 0#16 <;> simp [writeCells, cellsWf, *]
  | cons c rest ih =>
    obtain ⟨b, w⟩ := c
    obtain ⟨hle, hlt, hw, hrest⟩ := cellsWf_cons.mp wf
    by_cases hab : a < b
    · by_cases hv : v = 0#16
      · simpa [writeCells, hab, hv] using wf
      · simp only [writeCells, if_pos hab, if_neg hv]
        exact cellsWf_cons.mpr ⟨hlo, ha, hv, cellsWf_cons.mpr ⟨hab, hlt, hw, hrest⟩⟩
    · by_cases heq : a = b
      · by_cases hv : v = 0#16
        · simp only [writeCells, if_neg hab, if_pos heq, if_pos hv]
          exact cellsWf_mono (by omega) hrest
        · simp only [writeCells, if_neg hab, if_pos heq, if_neg hv]
          exact cellsWf_cons.mpr ⟨hlo, ha, hv, heq ▸ hrest⟩
      · simp only [writeCells, if_neg hab, if_neg heq]
        exact cellsWf_cons.mpr ⟨hle, hlt, hw, ih hrest (by omega)⟩

theorem readCells_writeCells {lo a b : Nat} {v : Word} {cells : List WordCell} (wf : cellsWf lo cells = true) :
    readCells (writeCells cells a v) b = if b = a then v else readCells cells b := by
  induction cells generalizing lo with
  | nil => by_cases hv : v = 0#16 <;> simp [writeCells, readCells, hv]
  | cons c rest ih =>
    obtain ⟨d, w⟩ := c
    obtain ⟨-, -, -, hrest⟩ := cellsWf_cons.mp wf
    by_cases had : a < d
    · by_cases hv : v = 0#16
      · have hread : readCells ((d, w) :: rest) a = 0#16 :=
          readCells_below (cellsWf_cons.mpr ⟨le_rfl, (cellsWf_cons.mp wf).2.1, (cellsWf_cons.mp wf).2.2.1, hrest⟩) had
        simp only [writeCells, if_pos had, if_pos hv]
        split
        · next h => rw [h, hread, hv]
        · rfl
      · simp [writeCells, if_pos had, if_neg hv, readCells]
    · by_cases heq : a = d
      · subst heq
        by_cases hv : v = 0#16
        · simp only [writeCells, if_neg had, if_pos hv, if_true]
          by_cases hb : b = a
          · rw [hb, readCells_below hrest (Nat.lt_succ_self a)]
            simp [hv]
          · simp [readCells, hb]
        · by_cases hb : b = a <;> simp [writeCells, hv, readCells, hb]
      · simp only [writeCells, if_neg had, if_neg heq, readCells, ih hrest]
        by_cases hb : b = d
        · rw [if_pos hb, if_pos hb, if_neg (by omega)]
        · rw [if_neg hb, if_neg hb]

theorem cellsWf_ext {lo : Nat} {c d : List WordCell} (hc : cellsWf lo c = true) (hd : cellsWf lo d = true)
    (h : ∀ a, readCells c a = readCells d a) : c = d := by
  induction c generalizing lo d with
  | nil =>
    cases d with
    | nil => rfl
    | cons y ys =>
      obtain ⟨-, -, hv, -⟩ := cellsWf_cons.mp hd
      exact absurd (by simpa [readCells] using (h y.1).symm) hv
  | cons x xs ih =>
    obtain ⟨a, v⟩ := x
    obtain ⟨hlo, ha, hv, hxs⟩ := cellsWf_cons.mp hc
    cases d with
    | nil => exact absurd (by simpa [readCells] using h a) hv
    | cons y ys =>
      obtain ⟨b, w⟩ := y
      obtain ⟨hlo', hb, hw, hys⟩ := cellsWf_cons.mp hd
      have hab : a = b := by
        rcases Nat.lt_trichotomy a b with hlt | heq | hgt
        · exact absurd (by
            have := h a
            rwa [readCells, if_pos rfl, readCells, if_neg (by omega), readCells_below hys (by omega)] at this) hv
        · exact heq
        · exact absurd (by
            have := (h b).symm
            rwa [readCells, if_pos rfl, readCells, if_neg (by omega), readCells_below hxs (by omega)] at this) hw
      subst hab
      have hvw : v = w := by simpa [readCells] using h a
      subst hvw
      refine congrArg ((a, v) :: ·) (ih hxs hys fun k => ?_)
      by_cases hk : k = a
      · rw [hk, readCells_below hxs (Nat.lt_succ_self a), readCells_below hys (Nat.lt_succ_self a)]
      · simpa [readCells, hk] using h k

/-! ### Memory -/

/-- Every word address exists (spec/20_memory.md R61). -/
theorem address_exists (a : Addr) : a.toNat < Config.memWords := a.isLt

@[simp] theorem Memory.read_empty (a : Addr) : Memory.empty.read a = 0#16 := rfl

@[simp] theorem Memory.empty_wf : Memory.empty.wf = true := rfl

@[simp] theorem State.reset_mem_wf : State.reset.mem.wf = true := rfl

/-- A write keeps the canonical form. -/
@[simp] theorem Memory.write_wf {m : Memory} (h : m.wf = true) (a : Addr) (v : Word) : (m.write a v).wf = true :=
  writeCells_wf h (Nat.zero_le _) (address_exists a)

/-- What every read sees after a write. -/
theorem Memory.read_write {m : Memory} (h : m.wf = true) (a b : Addr) (v : Word) :
    (m.write a v).read b = if b = a then v else m.read b := by
  have := readCells_writeCells (a := a.toNat) (b := b.toNat) (v := v) h
  simpa [Memory.read, Memory.write, BitVec.toNat_inj] using this

@[simp] theorem Memory.read_write_same {m : Memory} (h : m.wf = true) (a : Addr) (v : Word) :
    (m.write a v).read a = v := by simp [Memory.read_write h]

theorem Memory.read_write_other {m : Memory} (h : m.wf = true) {a b : Addr} (hne : b ≠ a) (v : Word) :
    (m.write a v).read b = m.read b := by simp [Memory.read_write h, hne]

/-- Canonical memories that read alike everywhere are equal. -/
theorem Memory.ext_of_read {m n : Memory} (hm : m.wf = true) (hn : n.wf = true) (h : ∀ a, m.read a = n.read a) :
    m = n := by
  obtain ⟨c⟩ := m
  obtain ⟨d⟩ := n
  refine congrArg Memory.mk (cellsWf_ext hm hn fun a => ?_)
  by_cases ha : a < Config.memWords
  · have := h (BitVec.ofNat 12 a)
    rwa [Memory.read, Memory.read, BitVec.toNat_ofNat, Nat.mod_eq_of_lt (show a < 2 ^ 12 from ha)] at this
  · rw [readCells_above hm ha, readCells_above hn ha]
where
  readCells_above {lo a : Nat} {cells : List WordCell} (wf : cellsWf lo cells = true) (h : ¬a < Config.memWords) :
      readCells cells a = 0#16 := by
    induction cells generalizing lo with
    | nil => rfl
    | cons x rest ih =>
      obtain ⟨-, hlt, -, hrest⟩ := cellsWf_cons.mp wf
      rw [readCells, if_neg (by omega)]
      exact ih hrest

/-- Writing back the value a word had undoes a write. -/
theorem Memory.write_write_read {m : Memory} (h : m.wf = true) (a : Addr) (v : Word) :
    (m.write a v).write a (m.read a) = m := by
  refine Memory.ext_of_read (by simp [h]) h fun b => ?_
  rw [Memory.read_write (by simp [h]), Memory.read_write h]
  split
  · next hb => rw [hb]
  · rfl

theorem canonicalCells_wf (cells : List WordCell) : cellsWf 0 (canonicalCells cells) = true := by
  induction cells with
  | nil => rfl
  | cons c rest ih =>
    obtain ⟨a, v⟩ := c
    by_cases ha : a < Config.memWords
    · rw [canonicalCells, if_pos ha]
      exact writeCells_wf ih (Nat.zero_le _) ha
    · rwa [canonicalCells, if_neg ha]

theorem readCells_canonicalCells (cells : List WordCell) {a : Nat} (ha : a < Config.memWords) :
    readCells (canonicalCells cells) a = readCells cells a := by
  induction cells with
  | nil => rfl
  | cons c rest ih =>
    obtain ⟨b, v⟩ := c
    by_cases hb : b < Config.memWords
    · rw [canonicalCells, if_pos hb, readCells_writeCells (canonicalCells_wf rest), readCells, ih]
    · rw [canonicalCells, if_neg hb, readCells, if_neg (by omega), ih]

/-- A loaded image is canonical, whatever the list. -/
@[simp] theorem Memory.ofImage_wf (image : Memory) : image.ofImage.wf = true := canonicalCells_wf image.cells

/-- A loaded image has the words the image has. -/
@[simp] theorem Memory.read_ofImage (image : Memory) (a : Addr) : image.ofImage.read a = image.read a :=
  readCells_canonicalCells image.cells (address_exists a)

/-- Loading a canonical memory gives that memory. -/
theorem Memory.ofImage_eq_self {m : Memory} (h : m.wf = true) : m.ofImage = m :=
  Memory.ext_of_read m.ofImage_wf h m.read_ofImage

/-- Undoing a step's write keeps the canonical form. -/
@[simp] theorem Memory.undo_wf {m : Memory} (h : m.wf = true) (d : Option MemDiff) : (m.undo d).wf = true := by
  cases d with
  | none => exact h
  | some d => exact Memory.write_wf h d.address d.prior

end Sys2Proof.Machine
end

