-- ==== Sys2Proof/Laws/State.lean ====
section
/-! SUPPORT. One lemma per field of State for each update of State, true by rfl, so that no later proof unfolds a
record update. The composite operations have their one lemma in Laws/Ops.lean. -/

namespace Sys2Proof.Machine

/-! ### mapRegs: register transfers -/

@[simp] theorem State.mapRegs_mem (s : State) (f : Registers → Registers) : (s.mapRegs f).mem = s.mem := rfl
@[simp] theorem State.mapRegs_regs (s : State) (f : Registers → Registers) : (s.mapRegs f).regs = f s.regs := rfl
@[simp] theorem State.mapRegs_loaded (s : State) (f : Registers → Registers) : (s.mapRegs f).loaded = s.loaded := rfl
@[simp] theorem State.mapRegs_hist (s : State) (f : Registers → Registers) : (s.mapRegs f).hist = s.hist := rfl
@[simp] theorem State.mapRegs_memw (s : State) (f : Registers → Registers) : (s.mapRegs f).memw = s.memw := rfl
@[simp] theorem State.mapRegs_params (s : State) (f : Registers → Registers) : (s.mapRegs f).params = s.params := rfl
@[simp] theorem State.mapRegs_host (s : State) (f : Registers → Registers) : (s.mapRegs f).host = s.host := rfl
@[simp] theorem State.mapRegs_tick (s : State) (f : Registers → Registers) : (s.mapRegs f).tick = s.tick := rfl
@[simp] theorem State.mapRegs_reply (s : State) (f : Registers → Registers) : (s.mapRegs f).reply = s.reply := rfl

/-! ### memWrite: one memory write -/

@[simp] theorem State.memWrite_mem (s : State) (a : Addr) (v : Word) : (s.memWrite a v).mem = s.mem.write a v := rfl
@[simp] theorem State.memWrite_regs (s : State) (a : Addr) (v : Word) : (s.memWrite a v).regs = s.regs := rfl
@[simp] theorem State.memWrite_loaded (s : State) (a : Addr) (v : Word) : (s.memWrite a v).loaded = s.loaded := rfl
@[simp] theorem State.memWrite_hist (s : State) (a : Addr) (v : Word) : (s.memWrite a v).hist = s.hist := rfl
@[simp] theorem State.memWrite_memw (s : State) (a : Addr) (v : Word) : (s.memWrite a v).memw = some ⟨a, s.mem.read a⟩ := rfl
@[simp] theorem State.memWrite_params (s : State) (a : Addr) (v : Word) : (s.memWrite a v).params = s.params := rfl
@[simp] theorem State.memWrite_host (s : State) (a : Addr) (v : Word) : (s.memWrite a v).host = s.host := rfl
@[simp] theorem State.memWrite_tick (s : State) (a : Addr) (v : Word) : (s.memWrite a v).tick = s.tick := rfl
@[simp] theorem State.memWrite_reply (s : State) (a : Addr) (v : Word) : (s.memWrite a v).reply = s.reply := rfl

/-! ### latch: the latch of the inputs -/

@[simp] theorem State.latch_mem (s : State) (x : Config.HostInputs) : (s.latch x).mem = s.mem := rfl
@[simp] theorem State.latch_regs (s : State) (x : Config.HostInputs) : (s.latch x).regs = { s.regs with fgi := x.fgi, fgo := x.fgo, inpr := x.inpr } := rfl
@[simp] theorem State.latch_loaded (s : State) (x : Config.HostInputs) : (s.latch x).loaded = s.loaded := rfl
@[simp] theorem State.latch_hist (s : State) (x : Config.HostInputs) : (s.latch x).hist = s.hist := rfl
@[simp] theorem State.latch_memw (s : State) (x : Config.HostInputs) : (s.latch x).memw = none := rfl
@[simp] theorem State.latch_params (s : State) (x : Config.HostInputs) : (s.latch x).params = s.params := rfl
@[simp] theorem State.latch_host (s : State) (x : Config.HostInputs) : (s.latch x).host = s.host := rfl
@[simp] theorem State.latch_tick (s : State) (x : Config.HostInputs) : (s.latch x).tick = s.tick := rfl
@[simp] theorem State.latch_reply (s : State) (x : Config.HostInputs) : (s.latch x).reply = s.reply := rfl

/-! ### answer: a result for the Host -/

@[simp] theorem State.answer_mem (s : State) (r : Reply) : (s.answer r).mem = s.mem := rfl
@[simp] theorem State.answer_regs (s : State) (r : Reply) : (s.answer r).regs = s.regs := rfl
@[simp] theorem State.answer_loaded (s : State) (r : Reply) : (s.answer r).loaded = s.loaded := rfl
@[simp] theorem State.answer_hist (s : State) (r : Reply) : (s.answer r).hist = s.hist := rfl
@[simp] theorem State.answer_memw (s : State) (r : Reply) : (s.answer r).memw = s.memw := rfl
@[simp] theorem State.answer_params (s : State) (r : Reply) : (s.answer r).params = s.params := rfl
@[simp] theorem State.answer_host (s : State) (r : Reply) : (s.answer r).host = s.host := rfl
@[simp] theorem State.answer_tick (s : State) (r : Reply) : (s.answer r).tick = s.tick := rfl
@[simp] theorem State.answer_reply (s : State) (r : Reply) : (s.answer r).reply = some r := rfl

/-! ### recordFrame: the frame test -/

@[simp] theorem State.recordFrame_mem (s : State) (pc : Addr) (h : Bool) : (s.recordFrame pc h).mem = s.mem := rfl
@[simp] theorem State.recordFrame_regs (s : State) (pc : Addr) (h : Bool) : (s.recordFrame pc h).regs = s.regs := rfl
@[simp] theorem State.recordFrame_loaded (s : State) (pc : Addr) (h : Bool) : (s.recordFrame pc h).loaded = s.loaded := rfl
@[simp] theorem State.recordFrame_hist (s : State) (pc : Addr) (h : Bool) : (s.recordFrame pc h).hist = if pushesFrame pc h s.regs.pc then ⟨s.regs, s.memw⟩ :: s.hist else s.hist := rfl
@[simp] theorem State.recordFrame_memw (s : State) (pc : Addr) (h : Bool) : (s.recordFrame pc h).memw = none := rfl
@[simp] theorem State.recordFrame_params (s : State) (pc : Addr) (h : Bool) : (s.recordFrame pc h).params = s.params := rfl
@[simp] theorem State.recordFrame_host (s : State) (pc : Addr) (h : Bool) : (s.recordFrame pc h).host = s.host := rfl
@[simp] theorem State.recordFrame_tick (s : State) (pc : Addr) (h : Bool) : (s.recordFrame pc h).tick = s.tick := rfl
@[simp] theorem State.recordFrame_reply (s : State) (pc : Addr) (h : Bool) : (s.recordFrame pc h).reply = s.reply := rfl

/-! ### load: LOAD_OK -/

@[simp] theorem State.load_mem (s : State) (image : Memory) : (s.load image).mem = image.ofImage := rfl
@[simp] theorem State.load_regs (s : State) (image : Memory) : (s.load image).regs = Registers.zero := rfl
@[simp] theorem State.load_loaded (s : State) (image : Memory) : (s.load image).loaded = true := rfl
@[simp] theorem State.load_hist (s : State) (image : Memory) : (s.load image).hist = [resetFrame] := rfl
@[simp] theorem State.load_memw (s : State) (image : Memory) : (s.load image).memw = none := rfl
@[simp] theorem State.load_params (s : State) (image : Memory) : (s.load image).params = s.params := rfl
@[simp] theorem State.load_host (s : State) (image : Memory) : (s.load image).host = s.host := rfl
@[simp] theorem State.load_tick (s : State) (image : Memory) : (s.load image).tick = s.tick := rfl
@[simp] theorem State.load_reply (s : State) (image : Memory) : (s.load image).reply = s.reply := rfl

/-! ### loadFailed: LOAD_FAIL -/

@[simp] theorem State.loadFailed_mem (s : State) (image : Memory) : (s.loadFailed image).mem = image.ofImage := rfl
@[simp] theorem State.loadFailed_regs (s : State) (image : Memory) : (s.loadFailed image).regs = s.regs := rfl
@[simp] theorem State.loadFailed_loaded (s : State) (image : Memory) : (s.loadFailed image).loaded = s.loaded := rfl
@[simp] theorem State.loadFailed_hist (s : State) (image : Memory) : (s.loadFailed image).hist = s.hist := rfl
@[simp] theorem State.loadFailed_memw (s : State) (image : Memory) : (s.loadFailed image).memw = s.memw := rfl
@[simp] theorem State.loadFailed_params (s : State) (image : Memory) : (s.loadFailed image).params = s.params := rfl
@[simp] theorem State.loadFailed_host (s : State) (image : Memory) : (s.loadFailed image).host = s.host := rfl
@[simp] theorem State.loadFailed_tick (s : State) (image : Memory) : (s.loadFailed image).tick = s.tick := rfl
@[simp] theorem State.loadFailed_reply (s : State) (image : Memory) : (s.loadFailed image).reply = s.reply := rfl

/-! ### placeInstruction: a word placed for the next fetch -/

@[simp] theorem State.placeInstruction_mem (s : State) (w : Word) : (s.placeInstruction w).mem = s.mem.write s.regs.pc w := rfl
@[simp] theorem State.placeInstruction_regs (s : State) (w : Word) : (s.placeInstruction w).regs = { s.regs with r := false } := rfl
@[simp] theorem State.placeInstruction_loaded (s : State) (w : Word) : (s.placeInstruction w).loaded = true := rfl
@[simp] theorem State.placeInstruction_hist (s : State) (w : Word) : (s.placeInstruction w).hist = s.hist := rfl
@[simp] theorem State.placeInstruction_memw (s : State) (w : Word) : (s.placeInstruction w).memw = s.memw := rfl
@[simp] theorem State.placeInstruction_params (s : State) (w : Word) : (s.placeInstruction w).params = if s.historyFull then { s.params with histDepth := none } else s.params := rfl
@[simp] theorem State.placeInstruction_host (s : State) (w : Word) : (s.placeInstruction w).host = .step ⟨false, false, 0⟩ :: s.host := rfl
@[simp] theorem State.placeInstruction_tick (s : State) (w : Word) : (s.placeInstruction w).tick = s.tick := rfl
@[simp] theorem State.placeInstruction_reply (s : State) (w : Word) : (s.placeInstruction w).reply = s.reply := rfl

end Sys2Proof.Machine
end

