-- ==== Sys2Proof/Laws/Ops.lean ====
section
/-! SUPPORT. One lemma for each shared operation that says all it does, and the equations of a step. Proofs cite these
instead of unfolding the operations. -/

namespace Sys2Proof.Machine

/-! ### The phases -/

/-- Fetch: AR, MAR, IR and PC, from the word at PC; nothing else. -/
theorem State.fetch_eq (s : State) :
    s.fetch = s.mapRegs fun g =>
      { g with ar := g.pc, mar := s.mem.read g.pc, ir := s.mem.read g.pc, pc := g.pc + 1 } := rfl

/-- Decode of a memory-reference instruction: AR is the effective address, MAR its word, I the indirect bit. -/
theorem State.decodeOperand_eq (s : State) (ind : Bool) (adr : Addr) :
    s.decodeOperand ind adr = s.mapRegs fun g =>
      { g with ar := s.effectiveAddress ind adr, mar := s.mem.read (s.effectiveAddress ind adr), i := ind } := by
  cases ind <;> rfl

/-- Decode of an opcode-7 instruction: AR and I. -/
theorem State.decodeFields_eq (s : State) (ind : Bool) (low : Addr) :
    s.decodeFields ind low = s.mapRegs fun g => { g with ar := low, i := ind } := rfl

/-- A skip: PC or nothing. -/
theorem State.skipIf_eq (s : State) (c : Bool) :
    s.skipIf c = s.mapRegs fun g => { g with pc := if c then g.pc + 1 else g.pc } := rfl

/-- Two register transfers in a row are one. -/
theorem State.mapRegs_mapRegs (s : State) (f g : Registers → Registers) :
    (s.mapRegs f).mapRegs g = s.mapRegs fun x => g (f x) := rfl

/-- The interrupt-service cycle: M[0], the step's diff, PC, IEN, R and H; nothing else (spec/60_exceptions.md R236). -/
theorem State.interruptService_eq (s : State) :
    s.interruptService =
      { s with
        mem := s.mem.write 0 (storedPc s.regs.pc)
        memw := some ⟨0, s.mem.read 0⟩
        regs := { s.regs with pc := 1, ien := false, r := false, h := false } } := rfl

/-- The end of an accepted step: the frame, no diff left, the StepOutcome. -/
theorem State.finishStep_eq (s : State) (pc : Addr) (h interrupt : Bool) :
    s.finishStep pc h interrupt =
      { s with
        hist := if pushesFrame pc h s.regs.pc then ⟨s.regs, s.memw⟩ :: s.hist else s.hist
        memw := none
        reply := some (.stepOutcome s.regs interrupt s.regs.h) } := rfl

/-- R recomputed and PC parked, in one register transfer. -/
theorem State.closeCycle_eq (s : State) :
    s.recomputeR.parkOnHlt = s.mapRegs fun g =>
      { g with r := g.ien && (g.fgi || g.fgo), pc := if g.ir = 0x7001#16 then g.pc - 1 else g.pc } := rfl

/-! ### Step-back -/

/-- What STEP_BACK can do: undo the newest frame, or refuse. -/
theorem State.stepBack_cases (s : State) :
    (∃ f g older, s.loaded = true ∧ s.hist = f :: g :: older ∧
      s.stepBack = { s with hist := g :: older, regs := g.registers, mem := s.mem.undo f.memoryWrite,
                            reply := some (.snapshot g.registers) }) ∨
    ((s.loaded = false ∨ s.hist.length ≤ 1) ∧ s.stepBack = s.answer .stateError) := by
  unfold State.stepBack
  split
  · next f g older hl hh => exact .inl ⟨f, g, older, hl, hh, rfl⟩
  · next hno =>
    refine .inr ⟨?_, rfl⟩
    cases hl : s.loaded with
    | false => exact .inl rfl
    | true =>
      right
      match hh : s.hist with
      | [] => simp
      | [_] => simp
      | f :: g :: older => exact (hno f g older hl hh).elim

/-! ### What a meaning leaves alone -/

/-- What no meaning changes: LOADED, the history, the parameters and the Host's fields. -/
structure SameOutside (s t : State) : Prop where
  loaded : t.loaded = s.loaded
  hist : t.hist = s.hist
  params : t.params = s.params
  host : t.host = s.host
  tick : t.tick = s.tick
  reply : t.reply = s.reply

/-- Every instruction completes, and touches only the registers, the memory and the step's diff. -/
theorem exec_next (i : Instr) (s : State) : ∃ t, exec i s = .next t ∧ SameOutside s t := by
  cases i <;>
    simp only [exec, execAnd, execAdd, execLda, execSta, execBun, execBsa, execIsz, execCla, execCle, execCma, execCme,
      execCir, execCil, execInc, execSpa, execSna, execSza, execSze, execHlt, execInp, execOut, execSki, execSko,
      execIon, execIof, execUnassigned, State.decodeOperand_eq, State.decodeFields_eq, State.skipIf_eq] <;>
    exact ⟨_, rfl, rfl, rfl, rfl, rfl, rfl, rfl⟩

/-- What a meaning does to memory: nothing, or one recorded write. -/
theorem exec_memory (i : Instr) (s : State) : ∃ t, exec i s = .next t ∧
    ((t.mem = s.mem ∧ t.memw = s.memw) ∨
      ∃ a v, t.mem = s.mem.write a v ∧ t.memw = some ⟨a, s.mem.read a⟩) := by
  cases i <;>
    simp only [exec, execAnd, execAdd, execLda, execSta, execBun, execBsa, execIsz, execCla, execCle, execCma, execCme,
      execCir, execCil, execInc, execSpa, execSna, execSza, execSze, execHlt, execInp, execOut, execSki, execSko,
      execIon, execIof, execUnassigned, State.decodeOperand_eq, State.decodeFields_eq, State.skipIf_eq] <;>
    first
      | exact ⟨_, rfl, .inl ⟨rfl, rfl⟩⟩
      | exact ⟨_, rfl, .inr ⟨_, _, rfl, rfl⟩⟩

/-! ### The step -/

/-- The normal cycle is fetch, the decoded instruction's meaning, and the close of the cycle. -/
theorem normalCycle_eq {s t : State} {i : Instr} (hi : decode (s.mem.read s.regs.pc) = i)
    (h : exec i s.fetch = .next t) : normalCycle s = .next t.recomputeR.parkOnHlt := by
  have hir : s.fetch.regs.ir = s.mem.read s.regs.pc := rfl
  simp only [normalCycle, hir, hi, h]

/-- With R = 1 an accepted STEP is the interrupt-service cycle. -/
theorem performStep_interrupt {x : Config.HostInputs} {s : State} (h : s.regs.r = true) :
    performStep x s = .next ((s.latch x).interruptService.finishStep s.regs.pc s.regs.h true) := by
  simp [performStep, h]

/-- With R = 0 an accepted STEP is a normal cycle. -/
theorem performStep_normal {x : Config.HostInputs} {s t : State} (h : s.regs.r = false)
    (ht : exec (decode (s.mem.read s.regs.pc)) (s.latch x).fetch = .next t) :
    performStep x s = .next (t.recomputeR.parkOnHlt.finishStep s.regs.pc s.regs.h false) := by
  have hn := normalCycle_eq (s := s.latch x) (i := decode (s.mem.read s.regs.pc)) rfl ht
  simp [performStep, h, hn]

/-- All that an accepted STEP can do. -/
theorem performStep_cases (x : Config.HostInputs) (s : State) :
    (s.regs.r = true ∧
      performStep x s = .next ((s.latch x).interruptService.finishStep s.regs.pc s.regs.h true)) ∨
    (s.regs.r = false ∧ ∃ t, exec (decode (s.mem.read s.regs.pc)) (s.latch x).fetch = .next t ∧
      SameOutside (s.latch x).fetch t ∧
      performStep x s = .next (t.recomputeR.parkOnHlt.finishStep s.regs.pc s.regs.h false)) := by
  cases h : s.regs.r with
  | true => exact .inl ⟨rfl, performStep_interrupt h⟩
  | false =>
    obtain ⟨t, ht, hs⟩ := exec_next (decode (s.mem.read s.regs.pc)) (s.latch x).fetch
    exact .inr ⟨rfl, t, ht, hs, performStep_normal h ht⟩

/-- A pending command is the next one, and is pending no longer. -/
theorem step_of_pending {s : State} {c : Command} {rest : List Command} (h : s.host = c :: rest) :
    step s = runCommand c { s with host := rest } := by
  simp [step, State.nextCommand, State.issued, h]

end Sys2Proof.Machine
end

