-- ==== Sys2Proof/Laws/PerInstr.lean ====
section
/-! SUPPORT. The fields of an instruction word, and the family EncodedFields: what the opcode and bit 15 of each
instruction's word are, one lemma per constructor. -/

namespace Sys2Proof

/-- Bit `k` of three joined fields. -/
theorem getLsbD_joinFields (top : Bool) (op : BitVec 3) (low : Addr) (k : Nat) :
    (joinFields top op low).getLsbD k =
      if k < 12 then low.getLsbD k else if k < 15 then op.getLsbD (k - 12) else decide (k = 15) && top := by
  refine (BitVec.getLsbD_append (x := (BitVec.ofBool top ++ op : BitVec (1 + 3))) (y := low)).trans ?_
  rw [BitVec.getLsbD_append]
  split
  · rfl
  · simp only [show (k - 12 < 3) = (k < 15) by simp; omega]
    split
    · rfl
    · simp [show (k - 12 - 3 = 0) = (k = 15) by simp; omega]

@[simp] theorem opcodeField_joinFields (top : Bool) (op : BitVec 3) (low : Addr) :
    opcodeField (joinFields top op low) = op := by
  apply BitVec.eq_of_getLsbD_eq
  intro k hk
  simp only [opcodeField, BitVec.getLsbD_extractLsb', getLsbD_joinFields, hk, decide_true, Bool.true_and]
  rw [if_neg (by omega), if_pos (by omega), Nat.add_sub_cancel_left]

@[simp] theorem indirectBit_joinFields (top : Bool) (op : BitVec 3) (low : Addr) :
    indirectBit (joinFields top op low) = top := by
  simp only [indirectBit, getLsbD_joinFields]
  simp

@[simp] theorem addressField_joinFields (top : Bool) (op : BitVec 3) (low : Addr) :
    addressField (joinFields top op low) = low := by
  apply BitVec.eq_of_getLsbD_eq
  intro k hk
  simp [addressField, getLsbD_joinFields, hk]

/-- The opcode of an instruction (spec/30_encoding.md R81, R85). -/
def Instr.opcode : Instr → BitVec 3
  | .and _ _ => 0
  | .add _ _ => 1
  | .lda _ _ => 2
  | .sta _ _ => 3
  | .bun _ _ => 4
  | .bsa _ _ => 5
  | .isz _ _ => 6
  | .cla | .cle | .cma | .cme | .cir | .cil | .inc | .spa | .sna | .sza | .sze | .hlt => 7
  | .inp | .out | .ski | .sko | .ion | .iof | .unassigned _ _ => 7

/-- Bit 15 of an instruction: the indirect bit, or the group of an opcode-7 word (R81, R83). -/
def Instr.topBit : Instr → Bool
  | .and ind _ | .add ind _ | .lda ind _ | .sta ind _ | .bun ind _ | .bsa ind _ | .isz ind _ => ind
  | .cla | .cle | .cma | .cme | .cir | .cil | .inc | .spa | .sna | .sza | .sze | .hlt => false
  | .inp | .out | .ski | .sko | .ion | .iof => true
  | .unassigned group _ => group

end Sys2Proof

namespace Sys2Proof.Laws.EncodedFields

/-- The word of the instruction has the instruction's opcode and bit 15. -/
def Statement (i : Instr) : Prop := opcodeField (encode i) = i.opcode ∧ indirectBit (encode i) = i.topBit

theorem joined (top : Bool) (op : BitVec 3) (low : Addr) :
    opcodeField (joinFields top op low) = op ∧ indirectBit (joinFields top op low) = top :=
  ⟨opcodeField_joinFields top op low, indirectBit_joinFields top op low⟩

theorem and (ind : Bool) (adr : Addr) : Statement (.and ind adr) := joined ind _ adr
theorem add (ind : Bool) (adr : Addr) : Statement (.add ind adr) := joined ind _ adr
theorem lda (ind : Bool) (adr : Addr) : Statement (.lda ind adr) := joined ind _ adr
theorem sta (ind : Bool) (adr : Addr) : Statement (.sta ind adr) := joined ind _ adr
theorem bun (ind : Bool) (adr : Addr) : Statement (.bun ind adr) := joined ind _ adr
theorem bsa (ind : Bool) (adr : Addr) : Statement (.bsa ind adr) := joined ind _ adr
theorem isz (ind : Bool) (adr : Addr) : Statement (.isz ind adr) := joined ind _ adr
theorem cla : Statement .cla := ⟨rfl, rfl⟩
theorem cle : Statement .cle := ⟨rfl, rfl⟩
theorem cma : Statement .cma := ⟨rfl, rfl⟩
theorem cme : Statement .cme := ⟨rfl, rfl⟩
theorem cir : Statement .cir := ⟨rfl, rfl⟩
theorem cil : Statement .cil := ⟨rfl, rfl⟩
theorem inc : Statement .inc := ⟨rfl, rfl⟩
theorem spa : Statement .spa := ⟨rfl, rfl⟩
theorem sna : Statement .sna := ⟨rfl, rfl⟩
theorem sza : Statement .sza := ⟨rfl, rfl⟩
theorem sze : Statement .sze := ⟨rfl, rfl⟩
theorem hlt : Statement .hlt := ⟨rfl, rfl⟩
theorem inp : Statement .inp := ⟨rfl, rfl⟩
theorem out : Statement .out := ⟨rfl, rfl⟩
theorem ski : Statement .ski := ⟨rfl, rfl⟩
theorem sko : Statement .sko := ⟨rfl, rfl⟩
theorem ion : Statement .ion := ⟨rfl, rfl⟩
theorem iof : Statement .iof := ⟨rfl, rfl⟩
theorem unassigned (group : Bool) (low : Addr) : Statement (.unassigned group low) := joined group _ low

end Sys2Proof.Laws.EncodedFields
end

