-- ==== Sys2Proof/Tests/Slice0.lean ====
section
/-! SUPPORT. The model's own tests: ill-formed terms refused, words written out from the spec's encodings, one step per
instruction with the results of spec/95_test_vectors.md, the Host commands, the assembler, and for every obligation with
hypotheses a concrete state that meets them. -/

namespace Sys2Proof.Tests

open Machine

/-! ### Helpers -/

/-- The state in an outcome. -/
def stateOf : Host.Outcome State Fault Refusal → State
  | .next t => t
  | .fault _ => State.reset
  | .refused _ => State.reset

/-- A loaded machine with these words, these registers and this STEP pending. -/
def pending (cells : List WordCell) (g : Registers) (fgi fgo : Bool) (inpr : Byte) : State :=
  { State.reset with mem := ⟨cells⟩, regs := g, host := [.step ⟨fgi, fgo, inpr⟩] }

/-- The registers after one step with inputs 0. -/
def after (cells : List WordCell) (g : Registers) : Registers := (stateOf (step (pending cells g false false 0))).regs

/-- The registers after one step with inputs. -/
def afterWith (cells : List WordCell) (g : Registers) (fgi fgo : Bool) (inpr : Byte) : Registers :=
  (stateOf (step (pending cells g fgi fgo inpr))).regs

/-- The memory after one step with inputs 0. -/
def memoryAfter (cells : List WordCell) (g : Registers) : List WordCell :=
  (stateOf (step (pending cells g false false 0))).mem.cells

/-- All registers 0 but PC. -/
def at0 (pc : Addr) : Registers := { Registers.zero with pc := pc }

/-! ### Ill-formed terms (Sys2Proof/WellFormed.lean) -/

theorem test_wf_refuses_cla_as_unassigned : (Instr.unassigned false 0x800).wf = false := by decide
theorem test_wf_refuses_register_patterns : registerPatterns.all (fun p => !(Instr.unassigned false p).wf) = true := by
  decide
theorem test_wf_refuses_io_patterns : ioPatterns.all (fun p => !(Instr.unassigned true p).wf) = true := by decide
theorem test_wf_accepts_io_group_one_bit : (Instr.unassigned true 0x001).wf = true := by decide

/-! ### Words written out from spec/30_encoding.md R82 and R85 -/

theorem test_decode_and : decode 0b0000000000010000 = .and false 0b000000010000 := by decide
theorem test_decode_add : decode 0b1001000000100000 = .add true 0b000000100000 := by decide
theorem test_decode_lda : decode 0b0010000000000000 = .lda false 0b000000000000 := by decide
theorem test_decode_sta : decode 0b1011111111111111 = .sta true 0b111111111111 := by decide
theorem test_decode_bun : decode 0b1100000000000000 = .bun true 0b000000000000 := by decide
theorem test_decode_bsa : decode 0b0101000000000110 = .bsa false 0b000000000110 := by decide
theorem test_decode_isz : decode 0b0110100000000001 = .isz false 0b100000000001 := by decide
theorem test_decode_cla : decode 0b0111100000000000 = .cla := by decide
theorem test_decode_cle : decode 0b0111010000000000 = .cle := by decide
theorem test_decode_cma : decode 0b0111001000000000 = .cma := by decide
theorem test_decode_cme : decode 0b0111000100000000 = .cme := by decide
theorem test_decode_cir : decode 0b0111000010000000 = .cir := by decide
theorem test_decode_cil : decode 0b0111000001000000 = .cil := by decide
theorem test_decode_inc : decode 0b0111000000100000 = .inc := by decide
theorem test_decode_spa : decode 0b0111000000010000 = .spa := by decide
theorem test_decode_sna : decode 0b0111000000001000 = .sna := by decide
theorem test_decode_sza : decode 0b0111000000000100 = .sza := by decide
theorem test_decode_sze : decode 0b0111000000000010 = .sze := by decide
theorem test_decode_hlt : decode 0b0111000000000001 = .hlt := by decide
theorem test_decode_inp : decode 0b1111100000000000 = .inp := by decide
theorem test_decode_out : decode 0b1111010000000000 = .out := by decide
theorem test_decode_ski : decode 0b1111001000000000 = .ski := by decide
theorem test_decode_sko : decode 0b1111000100000000 = .sko := by decide
theorem test_decode_ion : decode 0b1111000010000000 = .ion := by decide
theorem test_decode_iof : decode 0b1111000001000000 = .iof := by decide
theorem test_decode_unassigned : decode 0b0111110000000000 = .unassigned false 0b110000000000 := by decide
theorem test_decode_unassigned_io : decode 0b1111000000100000 = .unassigned true 0b000000100000 := by decide
theorem test_decodeTableWord : decodeTableWord 16 0x7001 = some .hlt := by decide
theorem test_encode_lda_indirect : encode (.lda true 0x020) = 0xA020 := by decide

/-! ### One step per instruction: the vectors of spec/95_test_vectors.md section 2 -/

-- V15 and V12.
theorem test_and_direct : (after [(0x005, 0x0010), (0x010, 0x3C3C)] { at0 0x005 with ac := 0xF0F0, e := true }) =
    { at0 0x006 with ir := 0x0010, ac := 0x3030, ar := 0x010, mar := 0x3C3C, e := true } := by decide
theorem test_and_indirect :
    (after [(0x005, 0x8020), (0x020, 0x0030), (0x030, 0x0FF0)] { at0 0x005 with ac := 0xFFFF }).ac = 0x0FF0 := by decide

-- Section 2.2, first and fourth row.
theorem test_add_carry_leaves_e_clear :
    let g := after [(0x005, 0x1010), (0x010, 0x0001)] { at0 0x005 with ac := 0xFFFF, e := true }
    (g.ac, g.e) = (0x0000, false) := by decide
theorem test_add_both_top_bits :
    let g := after [(0x005, 0x1010), (0x010, 0xFFFF)] { at0 0x005 with ac := 0xFFFF }
    (g.ac, g.e) = (0xFFFE, true) := by decide

-- V6 and V14.
theorem test_lda_indirect_ignores_high_nibble :
    let g := after [(0x005, 0xA020), (0x020, 0xF030), (0x030, 0x1234)] (at0 0x005)
    (g.ac, g.ar, g.mar, g.i) = (0x1234, 0x030, 0x1234, true) := by decide
theorem test_lda_one_level_only :
    (after [(0x005, 0xA020), (0x020, 0x8030), (0x030, 0x8040), (0x040, 0x5555)] (at0 0x005)).ac = 0x8040 := by decide

-- V7 and V16.
theorem test_sta_indirect :
    memoryAfter [(0x005, 0xB020), (0x020, 0xF030), (0x030, 0x1234)] { at0 0x005 with ac := 0xBEEF } =
      [(0x005, 0xB020), (0x020, 0xF030), (0x030, 0xBEEF)] := by decide
theorem test_sta_keeps_old_word_in_mar :
    (after [(0x005, 0x3005)] { at0 0x005 with ac := 0x7001 }).mar = 0x3005 := by decide

-- V11 and the example of R155.
theorem test_bun_indirect :
    (after [(0x005, 0xC020), (0x020, 0xF030), (0x030, 0x1234)] (at0 0x005)).pc = 0x030 := by decide
theorem test_bun_reads_target :
    let g := after [(0x000, 0x2006), (0x004, 0x4000)] (at0 0x004)
    (g.pc, g.mar) = (0x000, 0x2006) := by decide

-- V4.
theorem test_bsa_wraps :
    let g := after [(0x010, 0x5FFF), (0xFFF, 0xAAAA)] (at0 0x010)
    (g.pc, g.ar, g.mar) = (0x000, 0x000, 0xAAAA) := by decide
theorem test_bsa_stores_return_address :
    memoryAfter [(0x010, 0x5FFF), (0xFFF, 0xAAAA)] (at0 0x010) = [(0x010, 0x5FFF), (0xFFF, 0x0011)] := by decide

-- V5 and V9.
theorem test_isz_skips_on_zero :
    let t := stateOf (step (pending [(0x100, 0xFFFF), (0xFFE, 0x6100)] (at0 0xFFE) false false 0))
    (t.regs.pc, t.mem.cells) = (0x000, [(0xFFE, 0x6100)]) := by decide
theorem test_isz_indirect :
    let g := after [(0x005, 0xE020), (0x020, 0xF030), (0x030, 0x1234)] (at0 0x005)
    (g.pc, g.mar) = (0x006, 0x1235) := by decide

-- Section 2.3.
theorem test_cla : after [(0x010, 0x7800)] { at0 0x010 with ac := 0xBEEF, e := true } =
    { at0 0x011 with ir := 0x7800, ar := 0x800, mar := 0x7800, e := true } := by decide
theorem test_cle : (after [(0x010, 0x7400)] { at0 0x010 with ac := 0xBEEF, e := true }).e = false := by decide
theorem test_cma : (after [(0x010, 0x7200)] { at0 0x010 with ac := 0x000A }).ac = 0xFFF5 := by decide
theorem test_cme : (after [(0x010, 0x7100)] (at0 0x010)).e = true := by decide
theorem test_cir_e_in :
    let g := after [(0x010, 0x7080)] { at0 0x010 with ac := 0x8000, e := true }
    (g.ac, g.e) = (0xC000, false) := by decide
theorem test_cir_e_out :
    let g := after [(0x010, 0x7080)] { at0 0x010 with ac := 0x0001 }
    (g.ac, g.e) = (0x0000, true) := by decide
theorem test_cil_e_in :
    let g := after [(0x010, 0x7040)] { at0 0x010 with ac := 0x4000, e := true }
    (g.ac, g.e) = (0x8001, false) := by decide
theorem test_cil_e_out :
    let g := after [(0x010, 0x7040)] { at0 0x010 with ac := 0x8001 }
    (g.ac, g.e) = (0x0002, true) := by decide
theorem test_inc_wraps_and_leaves_e :
    let g := after [(0x010, 0x7020)] { at0 0x010 with ac := 0xFFFF, e := true }
    (g.ac, g.e) = (0x0000, true) := by decide
theorem test_spa_boundary :
    ((after [(0x010, 0x7010)] { at0 0x010 with ac := 0x7FFF }).pc,
      (after [(0x010, 0x7010)] { at0 0x010 with ac := 0x8000 }).pc) = (0x012, 0x011) := by decide
theorem test_sna_boundary :
    ((after [(0x010, 0x7008)] { at0 0x010 with ac := 0x7FFF }).pc,
      (after [(0x010, 0x7008)] { at0 0x010 with ac := 0x8000 }).pc) = (0x011, 0x012) := by decide
theorem test_sza :
    ((after [(0x010, 0x7004)] (at0 0x010)).pc, (after [(0x010, 0x7004)] { at0 0x010 with ac := 0x0100 }).pc) =
      (0x012, 0x011) := by decide
theorem test_sze :
    ((after [(0x010, 0x7002)] (at0 0x010)).pc, (after [(0x010, 0x7002)] { at0 0x010 with e := true }).pc) =
      (0x012, 0x011) := by decide
-- V2: a HLT at the last address.
theorem test_hlt_parks_at_top : after [(0xFFF, 0x7001)] (at0 0xFFF) =
    { at0 0xFFF with ir := 0x7001, ar := 0x001, mar := 0x7001, h := true } := by decide

-- Section 2.4.
theorem test_inp_clears_fgi_before_r :
    afterWith [(0x010, 0xF800)] { at0 0x010 with ac := 0x1200, ien := true } true false 0x41 =
      { at0 0x011 with ir := 0xF800, ac := 0x1241, ar := 0x800, mar := 0xF800, i := true, ien := true, inpr := 0x41 } := by
  decide
theorem test_inp_other_flag_still_requests :
    let g := afterWith [(0x010, 0xF800)] { at0 0x010 with ien := true } true true 0x7A
    (g.ac, g.fgi, g.fgo, g.r) = (0x007A, false, true, true) := by decide
theorem test_out :
    let g := afterWith [(0x010, 0xF400)] { at0 0x010 with ac := 0x1241 } false true 0x00
    (g.outr, g.fgo, g.ac) = (0x41, false, 0x1241) := by decide
theorem test_ski_uses_fresh_flag :
    ((afterWith [(0x010, 0xF200)] (at0 0x010) true false 0).pc,
      (afterWith [(0x010, 0xF200)] { at0 0x010 with fgi := true } false false 0).pc) = (0x012, 0x011) := by decide
theorem test_sko :
    ((afterWith [(0x010, 0xF100)] (at0 0x010) false true 0).pc,
      (afterWith [(0x010, 0xF100)] (at0 0x010) true false 0).pc) = (0x012, 0x011) := by decide
theorem test_ion_requests_in_the_same_step :
    let g := afterWith [(0x010, 0xF080)] (at0 0x010) true false 0
    (g.ien, g.r) = (true, true) := by decide
theorem test_iof :
    let g := afterWith [(0x010, 0xF040)] { at0 0x010 with ien := true } true false 0
    (g.ien, g.r) = (false, false) := by decide

-- Section 2.5.
theorem test_unassigned_two_bits : after [(0x004, 0x7C00), (0x801, 0xDEAD)] { at0 0x004 with ac := 0x1234, e := true } =
    { at0 0x005 with ir := 0x7C00, ac := 0x1234, ar := 0xC00, mar := 0x7C00, e := true } := by decide
theorem test_unassigned_halt_bit : (after [(0x004, 0xF801)] (at0 0x004)).h = false := by decide

-- The parameters of spec/00_scope.md R7 at their other values.
theorem test_inp_high_zero :
    (stateOf (exec .inp { State.reset with
      params := { Config.defaults with inpHigh := .zero }, regs := { at0 0 with ac := 0x1200, inpr := 0x41 } })).regs.ac =
      0x0041 := by decide
theorem test_add_e_operand_dr :
    (stateOf (exec (.add false 0x010) { State.reset with
      params := { Config.defaults with addEOperand := .dr }, mem := ⟨[(0x010, 0x8000)]⟩,
      regs := { at0 0 with ac := 0x8000 } })).regs.e = false := by decide

/-! ### The interrupt, the history and the Host commands (spec/95_test_vectors.md sections 2.6 and 2.7) -/

/-- I4. -/
def serviceState : State :=
  pending [(0x000, 0xFFFF), (0x123, 0x7800)]
    { at0 0x123 with r := true, ien := true, ac := 0x5555, e := true, ir := 0x2020, ar := 0x020, mar := 0x0009, outr := 0x33 }
    false false 0x7E

theorem test_interrupt_service :
    let t := stateOf (step serviceState)
    t.regs = { at0 0x001 with
      ac := 0x5555, e := true, ir := 0x2020, ar := 0x020, mar := 0x0009, outr := 0x33, inpr := 0x7E } ∧
    t.mem.cells = [(0x000, 0x0123), (0x123, 0x7800)] ∧ t.hist.head?.map (·.memoryWrite) = some (some ⟨0x000, 0xFFFF⟩) := by
  decide
-- I7: no frame at address 1.
theorem test_interrupt_without_frame :
    let t := stateOf (step (pending [(0x000, 0x4002), (0x001, 0x7001)]
      { at0 0x001 with r := true, ien := true, h := true, ir := 0x7001 } true false 0))
    (t.hist.length, t.regs.h, t.regs.pc) = (1, false, 0x001) := by decide
-- HC1 to HC3.
theorem test_step_before_load :
    (stateOf (step { State.powerOn Config.defaults ⟨[]⟩ (at0 5) with host := [.step ⟨true, true, 0⟩] })).reply =
      some .stateError := by decide
theorem test_step_back_at_reset_frame : (stateOf (step { State.reset with host := [.stepBack] })).reply =
    some .stateError := by decide
-- V20 and HC7: a store of the same value is recorded, and undone.
theorem test_store_of_same_value_recorded :
    (stateOf (step (pending [(0x005, 0x3010), (0x010, 0x0007)] { at0 0x005 with ac := 0x0007 } false false 0))).hist.head?.map
      (·.memoryWrite) = some (some ⟨0x010, 0x0007⟩) := by decide
theorem test_step_back_undoes_store :
    let s := { State.reset with mem := ⟨[(0x000, 0x6010)]⟩ }
    let t := stateOf (runAll [.step ⟨false, false, 0⟩, .stepBack] s)
    (t.mem, t.regs, t.hist) = (s.mem, s.regs, s.hist) := by decide
theorem test_load_resets :
    let t := stateOf (step { pending [] { at0 7 with h := true } false false 0 with host := [.loadOk ⟨[(9, 5), (3, 4)]⟩] })
    (t.mem.cells, t.regs, t.hist.length) = ([(3, 4), (9, 5)], Registers.zero, 1) := by decide
-- HC9 and HC10.
theorem test_text_step_malformed :
    (stateOf (step { State.reset with host := [.stepText ['2'] ['0'] ['0', '1', '0', '0', '0', '0', '0', '1']] })).reply =
      some .inputValidationError := by decide
theorem test_text_step_order :
    (stateOf (step { State.reset with host := [.stepText ['0'] ['0'] ['0', '1', '0', '0', '0', '0', '0', '1']] })).regs.inpr =
      0x41 := by decide
theorem test_withFetchWord_runs : (stateOf (step (State.reset.withFetchWord 16 0x7200))).regs.ac = 0xFFFF := by decide

/-! ### The assembler (spec/95_test_vectors.md section 1.3, spec/31_assembler.md R123) -/

/-- `A, DEC 5`, `LDA A`, `HLT`. -/
def sourceProgram : List SourceLine :=
  [⟨some ['A'], ['D', 'E', 'C', ' ', '5'], []⟩, ⟨none, ['L', 'D', 'A', ' ', 'A'], []⟩, ⟨none, ['H', 'L', 'T'], []⟩]

theorem test_assemble_source_program : assembleSource sourceProgram =
    .success ⟨[(0, 0x0005), (1, 0x2000), (2, 0x7001)]⟩ [⟨['A'], 0⟩] := by decide
theorem test_assemble_duplicate_label : ∃ f, assembleSource
    [⟨some ['A'], ['H', 'E', 'X', ' ', '0'], []⟩, ⟨some ['A'], ['H', 'E', 'X', ' ', '0'], []⟩] = .failed ⟨[]⟩ f ∧
    f.kind = .invalidLabel := ⟨_, rfl, rfl⟩
theorem test_hex_boundary : (hexNumeral ['F', 'F', 'F', 'F'], hexNumeral ['G', '1']) = (some 65535, none) := by decide
theorem test_decimal_boundary :
    (match encodeDecimal ['-', '3', '2', '7', '6', '8'], encodeDecimal ['3', '2', '7', '6', '8'] with
      | .ok w, .error k => decide (w = 0x8000 ∧ k = .literalOutOfRange)
      | _, _ => false) = true := by decide
theorem test_mri_indirect :
    (match encodeLine [⟨['A'], 0⟩] ['L', 'D', 'A', ' ', 'A', ' ', 'I'] with
      | .ok w => decide (w = 0xA000)
      | .error _ => false) = true := by decide
theorem test_mri_two_spaces :
    (match encodeLine [⟨['A'], 0⟩] ['L', 'D', 'A', ' ', ' ', 'A'] with
      | .ok _ => false
      | .error k => decide (k = .malformedMemoryReference)) = true := by decide

/-! ### For every obligation with hypotheses, a concrete state that meets them -/

/-- A loaded machine with these words and registers, and a STEP with inputs 0 pending. -/
def ready (cells : List WordCell) (g : Registers) : State := pending cells g false false 0

/-- Inputs 0. -/
def noInput : Config.HostInputs := ⟨false, false, 0⟩

theorem witness_DecodeInvertsEncode :
    (Instr.isz true 0xFFF).wf = true ∧ (Instr.unassigned false 0x000).wf = true ∧ (Instr.unassigned true 0x020).wf = true := by
  decide

theorem witness_store_results :
    let s := ready [(0x020, 0xFFFF)] (at0 0xFFF)
    s.mem.wf = true ∧ exec (.sta true 0x020) s = .next (stateOf (exec (.sta true 0x020) s)) ∧
      exec (.bsa true 0x020) s = .next (stateOf (exec (.bsa true 0x020) s)) ∧
      exec (.isz false 0x020) s = .next (stateOf (exec (.isz false 0x020) s)) := ⟨by decide, rfl, rfl, rfl⟩

theorem witness_CmaResult :
    let s := ready [] { at0 0 with ac := 0x8000 }
    exec .cma s = .next (stateOf (exec .cma s)) ∧
      exec .inc (stateOf (exec .cma s)) = .next (stateOf (exec .inc (stateOf (exec .cma s)))) := ⟨rfl, rfl⟩

theorem witness_CirculatesRestore :
    let s := ready [] { at0 0 with ac := 0x0001 }
    (exec .cir s = .next (stateOf (exec .cir s)) ∧
      exec .cil (stateOf (exec .cir s)) = .next (stateOf (exec .cil (stateOf (exec .cir s))))) ∧
    (exec .cil s = .next (stateOf (exec .cil s)) ∧
      exec .cir (stateOf (exec .cil s)) = .next (stateOf (exec .cir (stateOf (exec .cil s))))) := ⟨⟨rfl, rfl⟩, ⟨rfl, rfl⟩⟩

-- HLT meets the premises of every clause but those of E under INC and of H; INC and AND meet those.
theorem witness_RegisterWriters :
    let s := ready [] (at0 0)
    (exec .hlt s = .next (stateOf (exec .hlt s)) ∧
      (∀ ind adr, Instr.hlt ≠ .and ind adr ∧ Instr.hlt ≠ .add ind adr ∧ Instr.hlt ≠ .lda ind adr) ∧
      (∀ ind adr, Instr.hlt ≠ .bun ind adr ∧ Instr.hlt ≠ .bsa ind adr ∧ Instr.hlt ≠ .isz ind adr) ∧
      Instr.hlt ∉ [.cla, .cma, .cir, .cil, .inc, .inp] ∧ Instr.hlt ∉ [.cle, .cme, .cir, .cil] ∧
      Instr.hlt ∉ [.spa, .sna, .sza, .sze, .ski, .sko] ∧ opcodeField (encode .hlt) = 7 ∧
      Instr.hlt ≠ .ion ∧ Instr.hlt ≠ .iof ∧ Instr.hlt ≠ .inp ∧ Instr.hlt ≠ .out) ∧
    (exec .inc s = .next (stateOf (exec .inc s)) ∧ Instr.inc ≠ .hlt ∧ s.params.incSetsE = false) ∧
    (exec (.and true 0xFFF) s = .next (stateOf (exec (.and true 0xFFF) s)) ∧
      (∀ ind adr, Instr.and true 0xFFF ≠ .bsa ind adr) ∧ opcodeField (encode (.and true 0xFFF)) ≠ 7) := by
  refine ⟨⟨rfl, ?_, ?_, by decide, by decide, by decide, by decide, by decide, by decide, by decide, by decide⟩,
    ⟨rfl, by decide, by decide⟩, rfl, ?_, by decide⟩ <;> intro ind adr <;> simp

theorem witness_AddFlagAgainstCarry :
    let s := ready [(0x010, 0x0001)] { at0 0 with ac := 0xFFFF }
    s.params.addEOperand = .mar ∧ exec (.add false 0x010) s = .next (stateOf (exec (.add false 0x010) s)) := ⟨rfl, rfl⟩

theorem witness_SubroutineReturns :
    let s := ready [] (at0 0xFFF)
    let t := stateOf (exec (.bsa false 0x006) s)
    s.mem.wf = true ∧ exec (.bsa false 0x006) s = .next t ∧ t.mem = t.mem ∧
      exec (.bun true (s.effectiveAddress false 0x006)) t =
        .next (stateOf (exec (.bun true (s.effectiveAddress false 0x006)) t)) := ⟨by decide, rfl, rfl, rfl⟩

theorem witness_InterruptReturns :
    let t := stateOf (runCommand (.step noInput) serviceState)
    serviceState.mem.wf = true ∧ serviceState.acceptsStep = true ∧ serviceState.regs.r = true ∧
      runCommand (.step noInput) serviceState = .next t ∧
      exec (decode 0xC000) t = .next (stateOf (exec (decode 0xC000) t)) := ⟨by decide, by decide, rfl, rfl, rfl⟩

theorem witness_StepRunsDecodedInstruction :
    let s := ready [(0xFFF, 0xB020)] (at0 0xFFF)
    let entered := ({ s with host := [] }.latch noInput).fetch
    s.NormalStepPending noInput [] ∧ decode (s.mem.read s.regs.pc) = .sta true 0x020 ∧
      (Instr.sta true 0x020).wf = true ∧ exec (.sta true 0x020) entered = .next (stateOf (exec (.sta true 0x020) entered)) :=
  ⟨⟨⟨rfl, by decide⟩, rfl⟩, by decide, rfl, rfl⟩

-- A pushed frame, and the case at address 1 that pushes none.
theorem witness_InterruptServiceStep :
    let s := ready [(0x001, 0x7001)] { at0 0x001 with r := true, h := true }
    (serviceState.StepPending ⟨false, false, 0x7E⟩ [] ∧ serviceState.regs.r = true) ∧
    (s.StepPending noInput [] ∧ s.regs.r = true ∧ s.regs.pc = 1 ∧ s.regs.h = true) :=
  ⟨⟨⟨rfl, by decide⟩, rfl⟩, ⟨rfl, by decide⟩, rfl, rfl, rfl⟩

theorem witness_RequestRecomputed :
    let s := pending [(0x000, 0xF080)] (at0 0x000) true false 0
    let entered := ({ s with host := [] }.latch ⟨true, false, 0⟩).fetch
    s.NormalStepPending ⟨true, false, 0⟩ [] ∧
      exec (decode (s.mem.read s.regs.pc)) entered = .next (stateOf (exec (decode (s.mem.read s.regs.pc)) entered)) ∧
      step s = .next (stateOf (step s)) ∧
      serviceState.StepPending ⟨false, false, 0x7E⟩ [] ∧ serviceState.regs.r = true ∧
      step serviceState = .next (stateOf (step serviceState)) :=
  ⟨⟨⟨rfl, by decide⟩, rfl⟩, rfl, rfl, ⟨rfl, by decide⟩, rfl, rfl⟩

theorem witness_DecodeTransfers :
    let s := ready [(0xFFF, 0xF800)] (at0 0xFFF)
    s.NormalStepPending noInput [] ∧ step s = .next (stateOf (step s)) ∧ (s.mem.read s.regs.pc).extractLsb' 12 3 = 7 :=
  ⟨⟨⟨rfl, by decide⟩, rfl⟩, rfl, by decide⟩

theorem witness_UnassignedStep :
    let s := ready [(0xFFF, 0xFFFF)] (at0 0xFFF)
    let w : Word := 0xFFFF
    s.NormalStepPending noInput [] ∧ s.mem.read s.regs.pc = w ∧ w.extractLsb' 12 3 = 7 ∧
      w ∉ [0x7800, 0x7400, 0x7200, 0x7100, 0x7080, 0x7040, 0x7020, 0x7010, 0x7008, 0x7004, 0x7002, 0x7001,
           0xF800, 0xF400, 0xF200, 0xF100, 0xF080, 0xF040] :=
  ⟨⟨⟨rfl, by decide⟩, rfl⟩, by decide, by decide, by decide⟩

-- The first HLT, and the same HLT when parked on it.
theorem witness_HltStepParks :
    let s := ready [(0xFFF, 0x7001)] (at0 0xFFF)
    let t := ready [(0xFFF, 0x7001)] { at0 0xFFF with h := true }
    (s.NormalStepPending noInput [] ∧ s.mem.read s.regs.pc = 0x7001 ∧ s.regs.h = false) ∧
    (t.NormalStepPending noInput [] ∧ t.mem.read t.regs.pc = 0x7001 ∧ t.regs.h = true) :=
  ⟨⟨⟨⟨rfl, by decide⟩, rfl⟩, by decide, rfl⟩, ⟨⟨rfl, by decide⟩, rfl⟩, by decide, rfl⟩

theorem witness_OldInputsDoNotMatter : (ready [(0x000, 0xF200)] (at0 0)).StepPending noInput [] := ⟨rfl, by decide⟩

theorem witness_InterruptFollowsRequest :
    let s := { pending [(0x000, 0xF080)] (at0 0x000) true false 0 with host := [.step ⟨true, false, 0⟩, .step noInput] }
    let t := stateOf (step s)
    s.mem.wf = true ∧ s.NormalStepPending ⟨true, false, 0⟩ [.step noInput] ∧ step s = .next t ∧ t.regs.ien = true ∧
      (t.regs.fgi || t.regs.fgo) = true ∧ t.acceptsStep = true ∧ step t = .next (stateOf (step t)) :=
  ⟨by decide, ⟨⟨rfl, by decide⟩, rfl⟩, rfl, by decide, by decide, by decide, rfl⟩

theorem witness_DisabledUntilIon :
    let s := ready [(0x000, 0xF040)] (at0 0)
    s.regs.ien = false ∧ s.regs.r = false ∧ decode (s.mem.read s.regs.pc) ≠ .ion ∧
      runCommand (.step ⟨true, true, 0⟩) s = .next (stateOf (runCommand (.step ⟨true, true, 0⟩) s)) :=
  ⟨rfl, rfl, by decide, rfl⟩

theorem witness_HaltIsPermanentWhenDisabled :
    let s := ready [(0xFFF, 0x7001)] { at0 0xFFF with h := true }
    let xs : List Config.HostInputs := [⟨true, true, 5⟩, noInput]
    s.regs.h = true ∧ s.regs.ien = false ∧ s.regs.r = false ∧ s.mem.read s.regs.pc = 0x7001 ∧
      runAll (xs.map Command.step) s = .next (stateOf (runAll (xs.map Command.step) s)) :=
  ⟨rfl, rfl, rfl, by decide, rfl⟩

theorem witness_StepOutcomeReported :
    serviceState.StepPending ⟨false, false, 0x7E⟩ [] ∧ step serviceState = .next (stateOf (step serviceState)) :=
  ⟨⟨rfl, by decide⟩, rfl⟩

-- A storing step and a word it does not name, and a step that stores nothing.
theorem witness_StepWritesAtMostOneWord :
    let s := ready [(0x000, 0x3FFF)] { at0 0 with ac := 7 }
    let t := ready [(0x000, 0x2FFF)] (at0 0)
    (s.mem.wf = true ∧ s.StepPending noInput [] ∧ step s = .next (stateOf (step s)) ∧
      s.stepDiff = some ⟨0xFFF, 0⟩ ∧ (0x000 : Addr) ≠ 0xFFF) ∧
    (t.mem.wf = true ∧ t.StepPending noInput [] ∧ step t = .next (stateOf (step t)) ∧ t.stepDiff = none) :=
  ⟨⟨by decide, ⟨rfl, by decide⟩, rfl, by decide, by decide⟩, by decide, ⟨rfl, by decide⟩, rfl, by decide⟩

-- A step that pushes a frame, and one that pushes none.
theorem witness_FramePushed :
    let s := ready [(0x000, 0x4000)] (at0 0)
    let t := ready [(0xFFF, 0x7001)] { at0 0xFFF with h := true }
    (s.StepPending noInput [] ∧ step s = .next (stateOf (step s)) ∧ s.regs.h = false) ∧
    (t.StepPending noInput [] ∧ step t = .next (stateOf (step t)) ∧ (stateOf (step t)).regs.pc = t.regs.pc ∧
      t.regs.h = true) :=
  ⟨⟨⟨rfl, by decide⟩, rfl, rfl⟩, ⟨rfl, by decide⟩, rfl, by decide, rfl⟩

theorem witness_StepBackRestores :
    let f : Frame := ⟨at0 1, some ⟨0xFFF, 9⟩⟩
    let g : Frame := ⟨at0 1, none⟩
    let s := { State.reset with host := [.stepBack], hist := [f, resetFrame] }
    let t := { State.reset with host := [.stepBack], hist := [g, resetFrame] }
    (s.host = .stepBack :: [] ∧ s.loaded = true ∧ s.hist = f :: resetFrame :: []) ∧
    (t.host = .stepBack :: [] ∧ t.loaded = true ∧ t.hist = g :: resetFrame :: []) :=
  ⟨⟨rfl, rfl, rfl⟩, rfl, rfl, rfl⟩

theorem witness_StepBackRefused :
    let s := { State.reset with host := [.stepBack] }
    let t := { State.powerOn Config.defaults ⟨[]⟩ (at0 5) with host := [.stepBack] }
    (s.host = .stepBack :: [] ∧ s.hist = [resetFrame]) ∧ (t.host = .stepBack :: [] ∧ t.loaded = false) :=
  ⟨⟨rfl, rfl⟩, rfl, rfl⟩

theorem witness_StepBacksInvertSteps :
    let s := { State.reset with mem := ⟨[(0x000, 0x6010), (0x001, 0x7001)]⟩ }
    let t := stateOf (runCommand (.step noInput) s)
    let u := stateOf (runCommand (.step noInput) t)
    s.mem.wf = true ∧ s.hist = resetFrame :: [] ∧ s.regs = resetFrame.registers ∧
      EveryStepPushes [noInput, noInput] s u :=
  ⟨by decide, rfl, rfl, _, rfl, by decide, _, rfl, by decide, rfl⟩

theorem witness_StepRefusedBeforeLoad :
    let s := { State.powerOn Config.defaults ⟨[]⟩ (at0 5) with host := [.step noInput] }
    s.host = .step noInput :: [] ∧ s.loaded = false := ⟨rfl, rfl⟩

theorem witness_StepRefusedWhenHistoryFull :
    let s := { ready [] (at0 0) with params := { Config.defaults with histDepth := some 1 } }
    s.host = .step noInput :: [] ∧ s.params.histDepth = some 1 ∧ 1 ≤ s.hist.length := ⟨rfl, rfl, by decide⟩

-- One malformed input of each kind.
theorem witness_TextStepValidated :
    State.reset.acceptsStep = true ∧ ¬(['2'] = ['0'] ∨ ['2'] = ['1']) ∧ ¬(([] : List Char) = ['0'] ∨ ([] : List Char) = ['1']) ∧
      ['0', '1', '0', '0', '0', '0', '0'].length ≠ 8 ∧ ∃ c ∈ ['0', '1', '0', '0', '0', '0', '0', 'x'], c ≠ '0' ∧ c ≠ '1' :=
  ⟨by decide, by decide, by decide, by decide, 'x', by decide, by decide, by decide⟩

theorem witness_LoadResets :
    { State.reset with host := [.loadOk ⟨[(0, 5)]⟩] }.host = .loadOk ⟨[(0, 5)]⟩ :: [] := rfl

-- Two lists for one image: the words of the empty list, and an entry at an address that does not exist.
theorem witness_LoadIsComplete :
    let image : Memory := ⟨[]⟩
    let image' : Memory := ⟨[(4096, 5)]⟩
    (∀ a, image.read a = image'.read a) ∧
      runCommand (.loadOk image) State.reset = .next (stateOf (runCommand (.loadOk image) State.reset)) ∧
      runCommand (.loadOk image') serviceState = .next (stateOf (runCommand (.loadOk image') serviceState)) := by
  refine ⟨fun a => ?_, rfl, rfl⟩
  have ha : a.toNat ≠ 4096 := Nat.ne_of_lt a.isLt
  simp [Memory.read, readCells, ha]

theorem witness_FailedLoadKeepsRegisters :
    { State.reset with host := [.loadFail ⟨[]⟩ ⟨1, .invalidLabel⟩] }.host = .loadFail ⟨[]⟩ ⟨1, .invalidLabel⟩ :: [] := rfl

theorem witness_DumpsChangeNothing :
    { State.reset with host := [.dumpMem] }.host = .dumpMem :: [] ∧
      { State.reset with host := [.dumpRegs] }.host = .dumpRegs :: [] := ⟨rfl, rfl⟩

theorem witness_FixedMnemonicsAssemble :
    ((['I', 'O', 'F'], 0xF040, .iof) : List Char × Word × Instr) ∈
      [(['C', 'L', 'A'], 0x7800, .cla), (['C', 'L', 'E'], 0x7400, .cle), (['C', 'M', 'A'], 0x7200, .cma),
       (['C', 'M', 'E'], 0x7100, .cme), (['C', 'I', 'R'], 0x7080, .cir), (['C', 'I', 'L'], 0x7040, .cil),
       (['I', 'N', 'C'], 0x7020, .inc), (['S', 'P', 'A'], 0x7010, .spa), (['S', 'N', 'A'], 0x7008, .sna),
       (['S', 'Z', 'A'], 0x7004, .sza), (['S', 'Z', 'E'], 0x7002, .sze), (['H', 'L', 'T'], 0x7001, .hlt),
       (['I', 'N', 'P'], 0xF800, .inp), (['O', 'U', 'T'], 0xF400, .out), (['S', 'K', 'I'], 0xF200, .ski),
       (['S', 'K', 'O'], 0xF100, .sko), (['I', 'O', 'N'], 0xF080, .ion), (['I', 'O', 'F'], 0xF040, .iof)] := by decide

-- The last address and the first; an unbound symbol; and a line that emits a word.
theorem witness_MemoryReferenceAssembles :
    let name := ['A', '9', 'Z']
    let table : List SymbolBinding := [⟨['A'], 0⟩, ⟨name, 4095⟩]
    ((['I', 'S', 'Z'], 0b110#3, Instr.isz) : List Char × BitVec 3 × (Bool → Addr → Instr)) ∈
        [(['A', 'N', 'D'], 0b000#3, Instr.and), (['A', 'D', 'D'], 0b001#3, Instr.add),
         (['L', 'D', 'A'], 0b010#3, Instr.lda), (['S', 'T', 'A'], 0b011#3, Instr.sta),
         (['B', 'U', 'N'], 0b100#3, Instr.bun), (['B', 'S', 'A'], 0b101#3, Instr.bsa),
         (['I', 'S', 'Z'], 0b110#3, Instr.isz)] ∧
      1 ≤ name.length ∧ name.length ≤ 3 ∧ (∀ c ∈ name, ('0' ≤ c ∧ c ≤ '9') ∨ ('A' ≤ c ∧ c ≤ 'Z') ∨ c = '-') ∧
      (⟨name, 4095⟩ ∈ table ∧ ∀ b ∈ table, b.name = name → b.address = 4095) ∧
      (⟨['A'], 0⟩ ∈ table ∧ ∀ b ∈ table, b.name = ['A'] → b.address = 0) ∧
      (∀ b ∈ ([] : List SymbolBinding), b.name ≠ name) ∧
      encodeLine table (['I', 'S', 'Z'] ++ ' ' :: (name ++ [' ', 'I'])) = .ok 0xEFFF :=
  ⟨by simp, by decide, by decide, by simp, by simp, by simp, by simp, rfl⟩

-- The ends of the two ranges (spec/31_assembler.md R108, R109), from both sides of each equivalence.
theorem witness_LiteralsAssemble :
    encodeLine [] ['H', 'E', 'X', ' ', 'F', 'F', 'F', 'F'] = .ok 0xFFFF ∧ Nat.ofDigits 16 [15, 15, 15, 15] = 0xFFFF ∧
      encodeLine [] ['D', 'E', 'C', ' ', '-', '3', '2', '7', '6', '8'] = .ok 0x8000 ∧
      ['-'] ++ Nat.toDigits 10 (-32768 : Int).natAbs = ['-', '3', '2', '7', '6', '8'] :=
  ⟨rfl, by decide, rfl, by decide⟩

theorem witness_AssemblyIdempotent :
    assembleSource sourceProgram = .success ⟨[(0, 0x0005), (1, 0x2000), (2, 0x7001)]⟩ [⟨['A'], 0⟩] ∧
      { State.reset with host := [.assemble sourceProgram] }.host = .assemble sourceProgram :: [] ∧
      { serviceState with host := [.assemble sourceProgram] }.host = .assemble sourceProgram :: [] :=
  ⟨by decide, rfl, rfl⟩

-- A source that pass 1 refuses, and one that pass 2 refuses after a word is emitted.
theorem witness_FailedAssemblyKeepsRegisters :
    let one : List SourceLine := [⟨some ['1'], ['H', 'L', 'T'], []⟩]
    let two : List SourceLine := [⟨none, ['H', 'L', 'T'], []⟩, ⟨none, ['N', 'O', 'P'], []⟩]
    (assembleSource one = .failed ⟨[]⟩ (failureAt 0 .invalidLabel) ∧
      pass1 one 0 0 [] = .error (failureAt 0 .invalidLabel)) ∧
    assembleSource two = .failed ⟨[(0, 0x7001)]⟩ (failureAt 1 .unrecognizedMnemonic) := ⟨⟨rfl, rfl⟩, rfl⟩

theorem witness_StepKeepsInvariant :
    let s := ready [(0x000, 0x6010)] (at0 0)
    s.Inv ∧ step s = .next (stateOf (step s)) := by
  refine ⟨⟨by decide, rfl, fun _ => ⟨rfl, rfl, rfl, ?_⟩⟩, rfl⟩
  intro f hf
  obtain rfl : f = resetFrame := by simpa [ready, pending, State.reset] using hf
  exact ⟨rfl, rfl⟩

/-- A machine loaded with one HLT, after one STEP. -/
def haltedOnce : State := stateOf (runCommand (.step noInput) ((State.reset.load ⟨[(0, 0x7001)]⟩).answer .ok))

theorem witness_HaltedMeansParked : Reachable haltedOnce ∧ haltedOnce.regs.h = true :=
  ⟨.step noInput (.load State.reset ⟨[(0, 0x7001)]⟩) rfl, by decide⟩

/-- ION at address 0 and a HLT at address 1, parked there with the interrupt pending. -/
def haltedAtOne : State :=
  let image : Memory := ⟨[(0, 0xF080), (1, 0x7001)]⟩
  stateOf (runAll [.step noInput, .step noInput, .step ⟨true, false, 0⟩] ((State.reset.load image).answer .ok))

/-- The same after the frame-less interrupt. -/
def enteredAtOne : State := stateOf (runCommand (.step ⟨true, false, 0⟩) haltedAtOne)

-- The registers of the newest frame but for the inputs; and the case PC = 1, where IEN and H differ too.
theorem witness_NewestFrameAgrees :
    Reachable (stateOf (runCommand (.step ⟨true, false, 3⟩) haltedOnce)) ∧
    Reachable enteredAtOne ∧ enteredAtOne.regs.pc = 1 ∧ enteredAtOne.regs.h = false ∧ enteredAtOne.regs.ien = false ∧
      enteredAtOne.hist.head?.map (fun f => (f.registers.h, f.registers.ien)) = some (true, true) := by
  refine ⟨.step ⟨true, false, 3⟩ witness_HaltedMeansParked.1 rfl, ?_, by decide⟩
  refine .step (s := haltedAtOne) ⟨true, false, 0⟩ ?_ rfl
  exact .step ⟨true, false, 0⟩ (.step noInput (.step noInput (.load State.reset ⟨[(0, 0xF080), (1, 0x7001)]⟩) rfl) rfl) rfl

/-- Parked on a HLT at address 1 with IEN = 1: the registers of the newest frame. -/
def parkedRegisters : Registers := { at0 1 with ir := 0x7001, mar := 0x7001, ar := 0x001, ien := true, h := true }

/-- Parked so, with the interrupt pending and these commands next. -/
def parkedState (host : List Command) : State :=
  { State.reset with
    mem := ⟨[(1, 0x7001)]⟩, regs := { parkedRegisters with r := true }, hist := [⟨parkedRegisters, none⟩, resetFrame],
    host := host }

theorem parkedState_historyInv (host : List Command) : (parkedState host).HistoryInv := by
  have parked : HaltFits ⟨[(1, 0x7001)]⟩ parkedRegisters := fun _ => by decide
  have zero : HaltFits ⟨[(1, 0x7001)]⟩ Registers.zero := fun h => absurd h (by decide)
  refine ⟨rfl, fun _ => parked rfl, ⟨parked, ?_, zero, ?_, trivial⟩, _, _, rfl, rfl, fun h => absurd h (by decide),
    .inl ⟨rfl, rfl⟩⟩
  · intro g hg h
    obtain rfl : resetFrame = g := Option.some.inj hg
    exact absurd h (by decide)
  · intro g hg
    cases hg

-- The next command is the STEP of the frame-less interrupt; or a STEP_BACK.
theorem witness_StepKeepsHistoryInvariant :
    let s := parkedState [.step noInput]
    let t := parkedState [.stepBack]
    (s.HistoryInv ∧ s.NoFailedLoadNext ∧ step s = .next (stateOf (step s)) ∧ s.regs.h = true ∧ s.regs.r = true) ∧
    (t.HistoryInv ∧ t.NoFailedLoadNext ∧ step t = .next (stateOf (step t))) :=
  ⟨⟨parkedState_historyInv _, ⟨nofun, nofun⟩, rfl, rfl, rfl⟩, parkedState_historyInv _, ⟨nofun, nofun⟩, rfl⟩

theorem witness_LoadedStateHasHistoryInvariant :
    runCommand (.loadOk ⟨[(0, 5)]⟩) serviceState = .next (stateOf (runCommand (.loadOk ⟨[(0, 5)]⟩) serviceState)) := rfl

end Sys2Proof.Tests
end

section
/-! SUPPORT. The word a step writes, and the proof of O37: the diff a step leaves is `State.stepDiff`, so the memory
after the step is the memory before it but for the word that diff names (spec/20_memory.md R66). -/

namespace Sys2Proof.Machine

/-- The address an instruction's meaning stores to: STA, BSA and ISZ their effective address, every other instruction
none (spec/20_memory.md R65, R66). Tied to the model by `exec_memw` and `State.stepDiff_normal`. -/
def State.storeAddress (s : State) : Instr → Option Addr
  | .sta ind adr | .bsa ind adr | .isz ind adr => some (s.effectiveAddress ind adr)
  | _ => none

/-- The diff of a write to a word: its address and the value it has now (spec/50_host_and_history.md R208). -/
def State.diffAt (s : State) (a : Addr) : MemDiff := ⟨a, s.mem.read a⟩

/-! ### The diff an instruction leaves -/

theorem State.decodeOperand_memw (s : State) (ind : Bool) (adr : Addr) : (s.decodeOperand ind adr).memw = s.memw := by
  rw [State.decodeOperand_eq, State.mapRegs_memw]

/-- The write of STA, BSA and ISZ: after decode AR is the effective address, and decode changed no memory. -/
theorem State.diffAt_decodeOperand (s : State) (ind : Bool) (adr : Addr) :
    (s.decodeOperand ind adr).diffAt (s.decodeOperand ind adr).regs.ar = s.diffAt (s.effectiveAddress ind adr) := by
  rw [State.decodeOperand_eq]
  rfl

/-- A meaning leaves the diff of the word it stores to, and the diff it found if it stores nothing. -/
theorem exec_memw {i : Instr} {s t : State} (h : exec i s = .next t) :
    t.memw = ((s.storeAddress i).map s.diffAt).or s.memw := by
  cases i with
  | sta ind adr | bsa ind adr | isz ind adr =>
    cases h
    exact congrArg some (s.diffAt_decodeOperand ind adr)
  | and ind adr | add ind adr | lda ind adr | bun ind adr =>
    cases h
    exact s.decodeOperand_memw ind adr
  | _ =>
    cases h
    rfl

/-! ### The diff of a step -/

theorem State.stepDiff_interrupt {s : State} (h : s.regs.r = true) : s.stepDiff = some (s.diffAt 0) := by
  rw [State.stepDiff, if_pos h]
  rfl

theorem State.stepDiff_normal {s : State} (h : s.regs.r = false) :
    s.stepDiff = (s.storeAddress (decode (s.mem.read s.regs.pc))).map s.diffAt := by
  rw [State.stepDiff, h]
  cases decode (s.mem.read s.regs.pc) <;> rfl

/-- The normal cycle's meaning leaves the step's diff: the latch left none, and fetch moved no operand. -/
theorem exec_fetch_memw {s t : State} {x : Config.HostInputs} (h : s.regs.r = false)
    (ht : exec (decode (s.mem.read s.regs.pc)) (s.latch x).fetch = .next t) : t.memw = s.stepDiff := by
  rw [exec_memw ht, State.stepDiff_normal h]
  exact Option.or_none

/-- Memory after an accepted STEP: untouched with no diff, and with a diff one word of it replaced. -/
theorem performStep_memory {x : Config.HostInputs} {s t : State} (h : performStep x s = .next t) :
    (s.stepDiff = none ∧ t.mem = s.mem) ∨ ∃ d v, s.stepDiff = some d ∧ t.mem = s.mem.write d.address v := by
  obtain ⟨hr, hp⟩ | ⟨hr, u, hu, -, hp⟩ := performStep_cases x s
  case inl =>
    cases hp.symm.trans h
    exact .inr ⟨_, _, State.stepDiff_interrupt hr, rfl⟩
  case inr =>
    cases hp.symm.trans h
    have hdiff : u.memw = s.stepDiff := exec_fetch_memw hr hu
    obtain ⟨u', hu', hmem⟩ := exec_memory (decode (s.mem.read s.regs.pc)) (s.latch x).fetch
    cases hu'.symm.trans hu
    obtain ⟨hsame, hnone⟩ | ⟨a, v, hwrite, hsome⟩ := hmem
    · exact .inl ⟨hdiff.symm.trans hnone, hsame⟩
    · exact .inr ⟨_, v, hdiff.symm.trans hsome, hwrite⟩

/-- Every word but the one the step's diff names reads as before. -/
theorem performStep_read_other {x : Config.HostInputs} {b : Addr} {s t : State} (wf : s.mem.wf = true)
    (h : performStep x s = .next t) (hb : ∀ d, s.stepDiff = some d → b ≠ d.address) : t.mem.read b = s.mem.read b := by
  obtain ⟨-, hmem⟩ | ⟨d, v, hd, hmem⟩ := performStep_memory h
  · rw [hmem]
  · rw [hmem, Memory.read_write_other wf (hb d hd)]

/-- The pending STEP is performed, in the state where it is pending no longer. -/
theorem step_of_stepPending {x : Config.HostInputs} {rest : List Command} {s : State} (h : s.StepPending x rest) :
    step s = performStep x { s with host := rest } := by
  obtain ⟨hhost, haccepts⟩ := h
  rw [step_of_pending hhost]
  exact if_pos haccepts

/-- Settles O37: the step is the performed STEP, whose one write is at the address of its diff. -/
theorem stepWritesAtMostOneWord : Obligations.StepWritesAtMostOneWord := by
  intro x rest b s t wf pending hstep hb
  rw [step_of_stepPending pending] at hstep
  exact performStep_read_other (s := { s with host := rest }) wf hstep hb

end Sys2Proof.Machine
end

section
/-! SUPPORT. The step of a pending assembly that succeeds, and the proof of O52: what such a step leaves depends on the
image alone, not on the state before (spec/31_assembler.md R116, R118). -/

namespace Sys2Proof.Machine

/-- LOAD_OK of the assembled image, answered with the symbol table (spec/31_assembler.md R116). -/
theorem assembleCommand_of_success {source : List SourceLine} {image : Memory} {symbols : List SymbolBinding}
    (h : assembleSource source = .success image symbols) (s : State) :
    assembleCommand source s = (s.load image).answer (.assembled symbols) := by
  rw [assembleCommand, h]

/-- The pending assembly that succeeds is a load of its image, in the state where it is pending no longer. -/
theorem step_of_pending_assembly {source : List SourceLine} {image : Memory} {symbols : List SymbolBinding}
    {rest : List Command} {s : State} (hsource : assembleSource source = .success image symbols)
    (hhost : s.host = .assemble source :: rest) :
    step s = .next ((State.load { s with host := rest } image).answer (.assembled symbols)) := by
  rw [step_of_pending hhost, runCommand, assembleCommand_of_success hsource]

/-- Settles O52: both steps load the one image, and a load overwrites memory, registers and history whatever they were. -/
theorem assemblyIdempotent : Obligations.AssemblyIdempotent := by
  intro source image symbols rest rest' s s' hsource hhost hhost'
  refine ⟨_, _, step_of_pending_assembly hsource hhost, step_of_pending_assembly hsource hhost', ?_⟩
  simp only [State.answer_mem, State.load_mem, Memory.read_ofImage, State.answer_regs, State.load_regs,
    State.answer_hist, State.load_hist, implies_true, and_self]

end Sys2Proof.Machine
end

section
/-! SUPPORT. The registers at the end of a pending STEP's cycle, and the proof of O28: a normal cycle ends with the
recomputation of R from what execute left, an interrupt-service cycle clears R and IEN in its place
(spec/40_instruction_cycle.md R138). -/

namespace Sys2Proof.Machine

/-- The frame test and the StepOutcome move no register. -/
@[simp] theorem State.finishStep_regs (s : State) (pc : Addr) (h interrupt : Bool) :
    (s.finishStep pc h interrupt).regs = s.regs := by
  rw [State.finishStep_eq]

/-- The pending STEP with R = 0 ends the cycle in the state execute left. -/
theorem step_of_normalStepPending {x : Config.HostInputs} {rest : List Command} {s u : State}
    (pending : s.NormalStepPending x rest)
    (hu : exec (decode (s.mem.read s.regs.pc)) ({ s with host := rest }.latch x).fetch = .next u) :
    step s = .next (u.recomputeR.parkOnHlt.finishStep s.regs.pc s.regs.h false) := by
  obtain ⟨hstep, hr⟩ := pending
  exact (step_of_stepPending hstep).trans (performStep_normal (s := { s with host := rest }) hr hu)

/-- The pending STEP with R = 1 is the interrupt-service cycle. -/
theorem step_of_interruptStepPending {x : Config.HostInputs} {rest : List Command} {s : State}
    (pending : s.StepPending x rest) (hr : s.regs.r = true) :
    step s = .next ((State.latch { s with host := rest } x).interruptService.finishStep s.regs.pc s.regs.h true) :=
  (step_of_stepPending pending).trans (performStep_interrupt (s := { s with host := rest }) hr)

/-- Settles O28: of the flags the close of a normal cycle moves R alone, which it computes from the other three; the
interrupt-service cycle has no such close. -/
theorem requestRecomputed : Obligations.RequestRecomputed := by
  refine ⟨fun x rest s t u pending hu hstep => ?normal, fun x rest s t pending hr hstep => ?interrupt⟩
  case normal =>
    cases (step_of_normalStepPending pending hu).symm.trans hstep
    rw [State.finishStep_regs, State.closeCycle_eq, State.mapRegs_regs]
    exact ⟨rfl, rfl, rfl, rfl⟩
  case interrupt =>
    cases (step_of_interruptStepPending pending hr).symm.trans hstep
    rw [State.finishStep_regs, State.interruptService_eq]
    exact ⟨rfl, rfl⟩

end Sys2Proof.Machine
end

section
/-! SUPPORT. The meanings of AND, LDA and ADD as one register transfer each, and the proofs of O4 and O5: an execute
phase that is a register transfer sees AR, MAR and I as decode leaves them (spec/41_memory_reference.md R150 to R153). -/

namespace Sys2Proof.Machine

/-- A register transfer after decode is one transfer, of the registers with the effective address in AR, its word in MAR
and the indirect bit in I (R150). -/
theorem State.mapRegs_decodeOperand (s : State) (ind : Bool) (adr : Addr) (f : Registers → Registers) :
    (s.decodeOperand ind adr).mapRegs f = s.mapRegs fun g =>
      f { g with ar := s.effectiveAddress ind adr, mar := s.mem.read (s.effectiveAddress ind adr), i := ind } := by
  rw [State.decodeOperand_eq, State.mapRegs_mapRegs]

/-- E of ADD by the value of ADD_E_OPERAND: the top bits of AC and MAR, or of AC and DR. -/
theorem addFlagE_eq (operand : Config.AddEOperand) (g : Registers) :
    addFlagE operand g =
      if operand = .mar then g.ac.getLsbD 15 && g.mar.getLsbD 15 else g.ac.getLsbD 15 && g.dr.getLsbD 15 := by
  cases operand with
  | mar => exact (if_pos rfl).symm
  | dr => exact (if_neg nofun).symm

/-! ### The three meanings -/

/-- AND: decode's transfers, and the operand anded into AC (R151). -/
theorem exec_and (ind : Bool) (adr : Addr) (s : State) :
    exec (.and ind adr) s = .next (s.mapRegs fun g => { g with
      ar := s.effectiveAddress ind adr
      mar := s.mem.read (s.effectiveAddress ind adr)
      i := ind
      ac := g.ac &&& s.mem.read (s.effectiveAddress ind adr) }) :=
  congrArg Host.Outcome.next (s.mapRegs_decodeOperand ind adr _)

/-- LDA: decode's transfers, and the operand in AC (R153). -/
theorem exec_lda (ind : Bool) (adr : Addr) (s : State) :
    exec (.lda ind adr) s = .next (s.mapRegs fun g => { g with
      ar := s.effectiveAddress ind adr
      mar := s.mem.read (s.effectiveAddress ind adr)
      i := ind
      ac := s.mem.read (s.effectiveAddress ind adr) }) :=
  congrArg Host.Outcome.next (s.mapRegs_decodeOperand ind adr _)

/-- ADD: decode's transfers, the sum in AC, and E from AC and the operand register before the addition (R152). -/
theorem exec_add (ind : Bool) (adr : Addr) (s : State) :
    exec (.add ind adr) s = .next (s.mapRegs fun g => { g with
      ar := s.effectiveAddress ind adr
      mar := s.mem.read (s.effectiveAddress ind adr)
      i := ind
      ac := g.ac + s.mem.read (s.effectiveAddress ind adr)
      e := addFlagE s.params.addEOperand { g with mar := s.mem.read (s.effectiveAddress ind adr) } }) :=
  congrArg Host.Outcome.next (s.mapRegs_decodeOperand ind adr _)

/-! ### The obligations -/

/-- Settles O4: both words are the format's, and both meanings are one register transfer, so nothing but registers
changes. -/
theorem andLdaResults : Obligations.AndLdaResults := by
  intro ind adr s
  exact ⟨rfl, exec_and ind adr s, rfl, exec_lda ind adr s⟩

/-- Settles O5: the meaning is one register transfer, whose E is read by the value of ADD_E_OPERAND. -/
theorem addResult : Obligations.AddResult := by
  intro ind adr s
  refine ⟨rfl, ?_⟩
  simp only [exec_add, addFlagE_eq]
  rfl

end Sys2Proof.Machine
end

section
/-! SUPPORT. The meanings of CMA and INC as one register transfer each, and the proof of O11: the complement plus one is
the two's complement (spec/42_register_reference.md R173, R177). -/

namespace Sys2Proof.Machine

/-- The spec's form of the complement of AC, `AC ^ 0xFFFF` (R173). -/
theorem xor_FFFF_eq_not (w : Word) : w ^^^ 0xFFFF = ~~~w :=
  BitVec.xor_allOnes

/-- CMA: decode's transfers, and AC complemented (R173). -/
theorem exec_cma (s : State) :
    exec .cma s = .next (s.mapRegs fun g => { g with ar := 0x200, i := false, ac := ~~~g.ac }) := rfl

/-- INC: decode's transfers, 1 added to AC, and E from AC before the addition (R177). -/
theorem exec_inc (s : State) :
    exec .inc s = .next (s.mapRegs fun g => { g with
      ar := 0x020
      i := false
      ac := g.ac + 1
      e := incFlagE s.params.incSetsE g }) := rfl

/-- CMA followed by INC negates AC, 0x8000 and 0x0000 included (R173). -/
theorem exec_inc_after_cma_ac {s t u : State} (hcma : exec .cma s = .next t) (hinc : exec .inc t = .next u) :
    u.regs.ac = -s.regs.ac := by
  cases (exec_cma s).symm.trans hcma
  cases (exec_inc _).symm.trans hinc
  exact (BitVec.neg_eq_not_add s.regs.ac).symm

/-- Settles O11: the meaning of CMA is one register transfer, and a complement plus one is the negation. -/
theorem cmaResult : Obligations.CmaResult := by
  intro s
  refine ⟨rfl, ?_, fun t u hcma hinc => ?_⟩
  · rw [xor_FFFF_eq_not]
    exact exec_cma s
  · exact (exec_inc_after_cma_ac hcma hinc).trans (BitVec.zero_sub s.regs.ac).symm

end Sys2Proof.Machine
end

section
/-! SUPPORT. The history at the end of an accepted STEP, and the proof of O38: the frame test sees PC and H as they were
before the latch, and the frame holds the final registers and the step's diff (spec/50_host_and_history.md R208 to R210). -/

namespace Sys2Proof.Machine

/-- The frame test as the spec words it: PC changed, or H was 0 (R210). -/
theorem pushesFrame_iff (pcBefore : Addr) (hBefore : Bool) (pcAfter : Addr) :
    pushesFrame pcBefore hBefore pcAfter = true ↔ pcAfter ≠ pcBefore ∨ hBefore = false := by
  rw [pushesFrame, Bool.or_eq_true, bne_iff_ne, Bool.not_eq_true']

/-- The end of an accepted STEP pushes its final registers with the diff left by the cycle, or pushes nothing. -/
theorem State.finishStep_hist (s : State) (pc : Addr) (h interrupt : Bool) :
    (s.finishStep pc h interrupt).hist =
      if s.regs.pc ≠ pc ∨ h = false then ⟨s.regs, s.memw⟩ :: s.hist else s.hist := by
  simp only [State.finishStep_eq, pushesFrame_iff]

/-- The history after an accepted STEP, its frame's diff given by the state before the step. -/
theorem performStep_hist {x : Config.HostInputs} {s t : State} (h : performStep x s = .next t) :
    t.hist = if t.regs.pc ≠ s.regs.pc ∨ s.regs.h = false then ⟨t.regs, s.stepDiff⟩ :: s.hist else s.hist := by
  obtain ⟨hr, hp⟩ | ⟨hr, u, hu, same, hp⟩ := performStep_cases x s
  case inl =>
    cases hp.symm.trans h
    rw [State.stepDiff_interrupt hr, State.finishStep_regs]
    exact State.finishStep_hist ..
  case inr =>
    cases hp.symm.trans h
    have hdiff : u.memw = s.stepDiff := exec_fetch_memw hr hu
    have hhist : u.hist = s.hist := same.hist
    rw [State.finishStep_hist, State.finishStep_regs, State.closeCycle_eq, State.mapRegs_memw, State.mapRegs_hist,
      hdiff, hhist]

/-- Settles O38: the step is the performed STEP, and the STEP's being pending no longer changes no register, word or
frame. -/
theorem framePushed : Obligations.FramePushed := by
  intro x rest s t pending hstep
  rw [step_of_stepPending pending] at hstep
  exact performStep_hist (s := { s with host := rest }) hstep

end Sys2Proof.Machine
end

section
/-! SUPPORT. The two outcomes of STEP_BACK, and the proofs of O39 and O40 (spec/50_host_and_history.md R214, R215). -/

namespace Sys2Proof.Machine

/-- With a frame below the newest one, STEP_BACK undoes the newest (R214). -/
theorem State.stepBack_of_frames {s : State} {f g : Frame} {older : List Frame} (hloaded : s.loaded = true)
    (hhist : s.hist = f :: g :: older) :
    s.stepBack = { s with hist := g :: older, regs := g.registers, mem := s.mem.undo f.memoryWrite,
                          reply := some (.snapshot g.registers) } := by
  obtain ⟨f', g', older', -, hframes, hback⟩ | ⟨hnone, -⟩ := s.stepBack_cases
  case inl =>
    cases hhist.symm.trans hframes
    exact hback
  case inr => simp [hloaded, hhist] at hnone

/-- With no frame below the newest one, or before a load, STEP_BACK is refused (R215). -/
theorem State.stepBack_of_no_frames {s : State} (h : s.loaded = false ∨ s.hist.length ≤ 1) :
    s.stepBack = s.answer .stateError := by
  obtain ⟨f, g, older, hloaded, hframes, -⟩ | ⟨-, hback⟩ := s.stepBack_cases
  case inl => simp [hloaded, hframes] at h
  case inr => exact hback

/-- The pending STEP_BACK runs in the state where it is pending no longer. -/
theorem step_of_pending_stepBack {rest : List Command} {s : State} (h : s.host = .stepBack :: rest) :
    step s = .next (State.stepBack { s with host := rest }) :=
  step_of_pending h

/-- Settles O39: STEP_BACK undoes the newest frame, whether or not that frame recorded a write. -/
theorem stepBackRestores : Obligations.StepBackRestores := by
  intro rest f g older s hhost hloaded hhist
  rw [step_of_pending_stepBack hhost,
    State.stepBack_of_frames (s := { s with host := rest }) hloaded hhist]
  cases hwrite : f.memoryWrite with
  | none => rfl
  | some d => rfl

/-- Settles O40: the reset frame alone is a history with no frame below the newest one. -/
theorem stepBackRefused : Obligations.StepBackRefused := by
  intro rest s hhost hrefused
  have hnone : s.loaded = false ∨ s.hist.length ≤ 1 := hrefused.symm.imp_right fun hreset => by rw [hreset]; rfl
  rw [step_of_pending_stepBack hhost, State.stepBack_of_no_frames (s := { s with host := rest }) hnone]
  rfl

end Sys2Proof.Machine
end

section
/-! SUPPORT. The pending commands that run no cycle and no step-back, and the proofs of O42, O45 and O48: a refused STEP,
a load, and the two dumps (spec/50_host_and_history.md R201, R203, R219). -/

namespace Sys2Proof.Machine

/-- Before a load no STEP is accepted (R203). -/
theorem State.acceptsStep_of_not_loaded {s : State} (h : s.loaded = false) : s.acceptsStep = false := by
  rw [State.acceptsStep, h, Bool.false_and]

/-- A STEP that is not accepted is answered with StateError, and does nothing else (R203, R205). -/
theorem stepCommand_of_refused {s : State} (h : s.acceptsStep = false) (x : Config.HostInputs) :
    stepCommand x s = .next (s.answer .stateError) := by
  rw [stepCommand, h]
  exact if_neg Bool.false_ne_true

/-- Settles O42: the pending STEP is refused, because LOADED is 0. -/
theorem stepRefusedBeforeLoad : Obligations.StepRefusedBeforeLoad := by
  intro x rest s hhost hloaded
  have hrefused : State.acceptsStep { s with host := rest } = false := State.acceptsStep_of_not_loaded hloaded
  rw [step_of_pending hhost]
  exact stepCommand_of_refused hrefused x

/-- Settles O45: the load overwrites memory, registers, history and LOADED, and the words loaded are the image's. -/
theorem loadResets : Obligations.LoadResets := by
  intro image rest s hhost
  exact ⟨(State.load { s with host := rest } image).answer .ok, step_of_pending hhost, image.read_ofImage,
    rfl, rfl, rfl, rfl, rfl, rfl, rfl⟩

/-- Settles O48: a dump is an answer, and an answer changes the reply alone. -/
theorem dumpsChangeNothing : Obligations.DumpsChangeNothing := by
  intro rest s
  exact ⟨fun hmem => step_of_pending hmem, fun hregs => step_of_pending hregs⟩

end Sys2Proof.Machine
end

section
/-! SUPPORT. The exact-match table against the list of assigned words, and the proofs of O1, O2 and O3: decode and encode
are inverse to each other on the well-formed instructions (spec/30_encoding.md sections 3 and 5). -/

namespace Sys2Proof

/-! ### A word and its three fields -/

/-- The three fields make up the word: the format drops no bit (R81). -/
theorem joinFields_fields (w : Word) : joinFields (indirectBit w) (opcodeField w) (addressField w) = w := by
  apply BitVec.eq_of_getLsbD_eq
  intro k hk
  rw [getLsbD_joinFields]
  simp only [indirectBit, opcodeField, addressField, BitVec.getLsbD_extractLsb']
  split
  · next hlow => simp [hlow]
  · split
    · next hlow hop => simp [show k - 12 < 3 by omega, show 12 + (k - 12) = k by omega]
    · next hlow hop => simp [show k = 15 by omega]

/-- Three fields determine the word they make up. -/
theorem joinFields_inj {top top' : Bool} {op op' : BitVec 3} {low low' : Addr}
    (h : joinFields top op low = joinFields top' op' low') : top = top' ∧ op = op' ∧ low = low' := by
  have htop := congrArg indirectBit h
  have hop := congrArg opcodeField h
  have hlow := congrArg addressField h
  simp only [indirectBit_joinFields, opcodeField_joinFields, addressField_joinFields] at htop hop hlow
  exact ⟨htop, hop, hlow⟩

/-! ### The exact-match table -/

/-- The words of the table, by group: the two lists of assigned patterns behind bit 15 and opcode 7 (R85). -/
theorem fixedRows_words :
    fixedRows.map (·.word) =
      registerPatterns.map (joinFields false 0b111#3) ++ ioPatterns.map (joinFields true 0b111#3) := by decide

/-- The assigned opcode-7 words are the words of the exact-match table (R85, R87). -/
theorem assigned_iff (group : Bool) (low : Addr) :
    assigned group low = true ↔ ∃ row ∈ fixedRows, row.word = joinFields group 0b111#3 low := by
  have hlow {g : Bool} {a : Addr} :
      joinFields g 0b111#3 a = joinFields group 0b111#3 low ↔ g = group ∧ a = low :=
    ⟨fun h => ⟨(joinFields_inj h).1, (joinFields_inj h).2.2⟩, fun ⟨hg, ha⟩ => by rw [hg, ha]⟩
  rw [← List.mem_map, fixedRows_words, List.mem_append, List.mem_map, List.mem_map]
  cases group <;> simp [assigned, hlow]

/-- A row of the exact-match table holds the word of its instruction, which the decoder reads back (R85, R86). -/
theorem fixedRows_sound : ∀ row ∈ fixedRows,
    encode row.instr = row.word ∧ decode row.word = row.instr ∧ row.instr.wf = true := by decide

/-- What decoding an opcode-7 word does: a row of the table with that word, or no row and the word unassigned. -/
theorem decodeFixed_cases (w : Word) :
    (∃ row ∈ fixedRows, row.word = w ∧ decodeFixed w = row.instr) ∨
    ((∀ row ∈ fixedRows, row.word ≠ w) ∧ decodeFixed w = .unassigned (indirectBit w) (addressField w)) := by
  rw [decodeFixed]
  cases hfind : fixedRows.find? (fun row => row.word == w) with
  | some row =>
    have hword : row.word = w := by simpa using List.find?_some hfind
    exact .inl ⟨row, List.mem_of_find?_eq_some hfind, hword, rfl⟩
  | none =>
    have hnone : ∀ row ∈ fixedRows, row.word ≠ w := by simpa using List.find?_eq_none.mp hfind
    exact .inr ⟨hnone, rfl⟩

/-! ### Decoding by opcode -/

/-- An opcode-7 word is decoded by the exact-match table (R86). -/
theorem decode_of_opcode_seven {w : Word} (h : opcodeField w = 0b111#3) : decode w = decodeFixed w := by
  rw [decode, h]
  rfl

/-- An opcode-7 word outside the table is unassigned (R87). -/
theorem decode_unassigned {group : Bool} {low : Addr} (h : assigned group low = false) :
    decode (joinFields group 0b111#3 low) = .unassigned group low := by
  rw [decode_of_opcode_seven (opcodeField_joinFields ..)]
  obtain ⟨row, hrow, hword, -⟩ | ⟨-, hdecode⟩ := decodeFixed_cases (joinFields group 0b111#3 low)
  · rw [(assigned_iff group low).mpr ⟨row, hrow, hword⟩] at h
    cases h
  · rw [hdecode, indirectBit_joinFields, addressField_joinFields]

/-- An opcode-7 word is the word of the instruction the exact-match table gives, which is well-formed. -/
theorem encode_decodeFixed {w : Word} (h : opcodeField w = 0b111#3) :
    (decodeFixed w).wf = true ∧ encode (decodeFixed w) = w := by
  have hfields : joinFields (indirectBit w) 0b111#3 (addressField w) = w := h ▸ joinFields_fields w
  obtain ⟨row, hrow, hword, hdecode⟩ | ⟨hnone, hdecode⟩ := decodeFixed_cases w
  · obtain ⟨hencode, -, hwf⟩ := fixedRows_sound row hrow
    exact hdecode ▸ ⟨hwf, hencode.trans hword⟩
  · have hfree : assigned (indirectBit w) (addressField w) = false := by
      rw [← Bool.not_eq_true, assigned_iff, hfields]
      exact fun ⟨row, hrow, hword⟩ => hnone row hrow hword
    exact hdecode ▸ ⟨by rw [Instr.wf, hfree]; rfl, hfields⟩

/-! ### The obligations -/

/-- Settles O2: the memory-reference words are read back field by field, the assigned words are rows of the exact-match
table, and an unassigned word is in no row. -/
theorem decodeInvertsEncode : Obligations.DecodeInvertsEncode := by
  intro i hwf
  cases i with
  | and ind adr | add ind adr | lda ind adr | sta ind adr | bun ind adr | bsa ind adr | isz ind adr =>
    simp [encode, decode]
  | unassigned group low =>
    exact decode_unassigned (by simpa [Instr.wf] using hwf)
  | _ => decide

/-- Settles O3: with opcode 0 to 6 the word is its three fields again, with opcode 7 it is the word the table matched. -/
theorem encodeInvertsDecode : Obligations.EncodeInvertsDecode := by
  intro w
  have hjoin {op : BitVec 3} (h : (opcodeField w).toNat = op.toNat) :
      joinFields (indirectBit w) op (addressField w) = w := BitVec.eq_of_toNat_eq h ▸ joinFields_fields w
  rw [decode]
  split
  case h_1 h | h_2 h | h_3 h | h_4 h | h_5 h | h_6 h | h_7 h => exact ⟨rfl, hjoin h⟩
  case h_8 h0 h1 h2 h3 h4 h5 h6 =>
    simp only [imp_false] at h0 h1 h2 h3 h4 h5 h6
    have hlt := (opcodeField w).isLt
    have hseven : (opcodeField w).toNat = 7 := by omega
    exact encode_decodeFixed (BitVec.eq_of_toNat_eq hseven)

/-- Settles O1: each of the thirteen words is decoded by evaluation. -/
theorem specWordsDecode : Obligations.SpecWordsDecode := by
  unfold Obligations.SpecWordsDecode
  decide

end Sys2Proof
end

section
/-! SUPPORT. The meanings of the instructions as one register transfer each, with one memory write for STA, BSA and ISZ,
and the proofs of O6 to O10, O12 and O14 to O20 (spec/41_memory_reference.md, 42_register_reference.md,
43_input_output.md). AND, LDA, ADD, CMA and INC stand with O4, O5 and O11. -/

namespace Sys2Proof.Machine

/-! ### The conditions and transfers in the spec's words -/

/-- The sign bit of AC is 1 from 0x8000 on (R179). -/
theorem getLsbD_fifteen (w : Word) : w.getLsbD 15 = decide (0x8000 ≤ w.toNat) :=
  w.msb_eq_decide

theorem acNegative_iff (g : Registers) : acNegative g = true ↔ 0x8000 ≤ g.ac.toNat := by
  rw [acNegative, getLsbD_fifteen, decide_eq_true_iff]

theorem acNotNegative_iff (g : Registers) : acNotNegative g = true ↔ g.ac.toNat < 0x8000 := by
  rw [acNotNegative, getLsbD_fifteen, Bool.not_eq_true', decide_eq_false_iff_not, Nat.not_le]

theorem acZero_iff (g : Registers) : acZero g = true ↔ g.ac = 0 := by
  rw [acZero, beq_iff_eq]
  rfl

theorem eZero_iff (g : Registers) : eZero g = true ↔ g.e = false := by
  rw [eZero, Bool.not_eq_true']

/-- The incremented word is 0 exactly when the old one was 0xFFFF (R157). -/
theorem add_one_beq_zero_iff (w : Word) : (w + 1 == 0#16) = true ↔ w = 0xFFFF := by
  rw [beq_iff_eq]
  constructor <;> intro h <;> bv_omega

/-- INP_HIGH = keep: the high byte of AC beside INPR, as a mask and an OR (R191). -/
theorem highByte_append (ac : Word) (inpr : Byte) :
    (ac.extractLsb' 8 8 ++ inpr : BitVec 16) = (ac &&& 0xFF00) ||| inpr.setWidth 16 := by
  have hmask : ∀ k < 16, (0xFF00 : Word).getLsbD k = decide (8 ≤ k) := by decide
  apply BitVec.eq_of_getLsbD_eq
  intro k hk
  refine (BitVec.getLsbD_append (x := ac.extractLsb' 8 8) (y := inpr)).trans ?_
  rw [BitVec.getLsbD_or, BitVec.getLsbD_and, hmask k hk, BitVec.getLsbD_setWidth, BitVec.getLsbD_extractLsb']
  by_cases hlow : k < 8
  · simp [hlow, show k < 16 by omega]
  · simp [hlow, show 8 ≤ k by omega, show k - 8 < 8 by omega, show 8 + (k - 8) = k by omega]

theorem inputToAc_eq (high : Config.InpHigh) (ac : Word) (inpr : Byte) :
    inputToAc high ac inpr =
      if high = .keep then (ac &&& 0xFF00) ||| inpr.setWidth 16 else inpr.setWidth 16 := by
  cases high with
  | keep => exact highByte_append ac inpr
  | zero => rfl

/-! ### The memory-reference instructions -/

@[simp] theorem State.decodeOperand_ar (s : State) (ind : Bool) (adr : Addr) :
    (s.decodeOperand ind adr).regs.ar = s.effectiveAddress ind adr := by
  rw [State.decodeOperand_eq]
  rfl

/-- STA: decode's transfers, and AC stored; MAR keeps the old word (R154). -/
theorem exec_sta (ind : Bool) (adr : Addr) (s : State) :
    exec (.sta ind adr) s = .next ((s.memWrite (s.effectiveAddress ind adr) s.regs.ac).mapRegs fun g => { g with
      ar := s.effectiveAddress ind adr
      mar := s.mem.read (s.effectiveAddress ind adr)
      i := ind }) := by
  simp only [exec, execSta, State.decodeOperand_eq]
  rfl

/-- BUN: decode's transfers, and the effective address in PC (R155). -/
theorem exec_bun (ind : Bool) (adr : Addr) (s : State) :
    exec (.bun ind adr) s = .next (s.mapRegs fun g => { g with
      ar := s.effectiveAddress ind adr
      mar := s.mem.read (s.effectiveAddress ind adr)
      i := ind
      pc := s.effectiveAddress ind adr }) :=
  congrArg Host.Outcome.next (s.mapRegs_decodeOperand ind adr _)

/-- BSA: decode's transfers, PC stored zero-extended, and AR and PC the address after the stored word (R156). -/
theorem exec_bsa (ind : Bool) (adr : Addr) (s : State) :
    exec (.bsa ind adr) s =
      .next ((s.memWrite (s.effectiveAddress ind adr) (storedPc s.regs.pc)).mapRegs fun g => { g with
        ar := s.effectiveAddress ind adr + 1
        mar := s.mem.read (s.effectiveAddress ind adr)
        i := ind
        pc := s.effectiveAddress ind adr + 1 }) := by
  simp only [exec, execBsa, State.decodeOperand_eq]
  rfl

/-- ISZ: decode's transfers, the word incremented in MAR and in memory, and the skip past 0xFFFF (R157). -/
theorem exec_isz (ind : Bool) (adr : Addr) (s : State) :
    exec (.isz ind adr) s =
      .next ((s.memWrite (s.effectiveAddress ind adr) (s.mem.read (s.effectiveAddress ind adr) + 1)).mapRegs fun g =>
        { g with
          ar := s.effectiveAddress ind adr
          mar := s.mem.read (s.effectiveAddress ind adr) + 1
          i := ind
          pc := if s.mem.read (s.effectiveAddress ind adr) = 0xFFFF then g.pc + 1 else g.pc }) := by
  simp only [exec, execIsz, State.decodeOperand_eq, State.skipIf_eq, State.mapRegs_regs, add_one_beq_zero_iff]
  rfl

/-- What a stored word changes: the word at its address and no other. -/
theorem read_of_mem_eq_write {m n : Memory} {a : Addr} {v : Word} (wf : m.wf = true) (h : n = m.write a v) :
    n.read a = v ∧ ∀ b, b ≠ a → n.read b = m.read b :=
  h ▸ ⟨Memory.read_write_same wf a v, fun _ hb => Memory.read_write_other wf hb v⟩

/-- Settles O6: one memory write and one register transfer; decode's AR is the address written. -/
theorem staResult : Obligations.StaResult := by
  intro ind adr s
  refine ⟨exec_sta ind adr s, fun wf t h => ?_⟩
  cases (exec_sta ind adr s).symm.trans h
  rw [State.decodeOperand_ar]
  exact read_of_mem_eq_write wf rfl

/-- Settles O7: the meaning is one register transfer. -/
theorem bunResult : Obligations.BunResult := exec_bun

/-- Settles O8: one memory write and one register transfer; decode's AR is the address written. -/
theorem bsaResult : Obligations.BsaResult := by
  intro ind adr s
  refine ⟨exec_bsa ind adr s, fun wf t h => ?_⟩
  cases (exec_bsa ind adr s).symm.trans h
  rw [State.decodeOperand_ar]
  exact read_of_mem_eq_write wf rfl

/-- Settles O9: one memory write and one register transfer; decode's AR is the address written. -/
theorem iszResult : Obligations.IszResult := by
  intro ind adr s
  refine ⟨exec_isz ind adr s, fun wf t h => ?_⟩
  cases (exec_isz ind adr s).symm.trans h
  rw [State.decodeOperand_ar]
  exact read_of_mem_eq_write wf rfl

/-! ### The register-reference instructions -/

/-- CLA: decode's transfers, and AC cleared (R171). -/
theorem exec_cla (s : State) :
    exec .cla s = .next (s.mapRegs fun g => { g with ar := 0x800, i := false, ac := 0 }) := rfl

/-- CLE: decode's transfers, and E cleared (R172). -/
theorem exec_cle (s : State) :
    exec .cle s = .next (s.mapRegs fun g => { g with ar := 0x400, i := false, e := false }) := rfl

/-- CME: decode's transfers, and E complemented (R174). -/
theorem exec_cme (s : State) :
    exec .cme s = .next (s.mapRegs fun g => { g with ar := 0x100, i := false, e := !g.e }) := rfl

/-- CIR: decode's transfers, and the ring of E and AC one place to the right (R175). -/
theorem exec_cir (s : State) :
    exec .cir s = .next (s.mapRegs fun g => { g with
      ar := 0x080, i := false, ac := circulateRight g.e g.ac, e := g.ac.getLsbD 0 }) := rfl

/-- CIL: decode's transfers, and the ring of E and AC one place to the left (R176). -/
theorem exec_cil (s : State) :
    exec .cil s = .next (s.mapRegs fun g => { g with
      ar := 0x040, i := false, ac := circulateLeft g.e g.ac, e := g.ac.getLsbD 15 }) := rfl

/-- An instruction that decodes AR and I and may skip is one register transfer, whatever its condition. -/
theorem State.skipIf_decodeFields {s : State} {c : Bool} {p : Prop} [Decidable p] (hc : c = true ↔ p) (ind : Bool)
    (low : Addr) :
    (s.decodeFields ind low).skipIf c = s.mapRegs fun g => { g with
      ar := low, i := ind, pc := if p then g.pc + 1 else g.pc } := by
  simp only [State.decodeFields_eq, State.skipIf_eq, State.mapRegs_mapRegs, hc]

/-- SPA: decode's transfers, and the skip with AC below 0x8000 (R178). -/
theorem exec_spa (s : State) :
    exec .spa s = .next (s.mapRegs fun g => { g with
      ar := 0x010, i := false, pc := if s.regs.ac.toNat < 0x8000 then g.pc + 1 else g.pc }) :=
  congrArg Host.Outcome.next (State.skipIf_decodeFields (acNotNegative_iff s.regs) false 0x010)

/-- SNA: decode's transfers, and the skip with AC from 0x8000 on (R179). -/
theorem exec_sna (s : State) :
    exec .sna s = .next (s.mapRegs fun g => { g with
      ar := 0x008, i := false, pc := if 0x8000 ≤ s.regs.ac.toNat then g.pc + 1 else g.pc }) :=
  congrArg Host.Outcome.next (State.skipIf_decodeFields (acNegative_iff s.regs) false 0x008)

/-- SZA: decode's transfers, and the skip with AC = 0 (R180). -/
theorem exec_sza (s : State) :
    exec .sza s = .next (s.mapRegs fun g => { g with
      ar := 0x004, i := false, pc := if s.regs.ac = 0 then g.pc + 1 else g.pc }) :=
  congrArg Host.Outcome.next (State.skipIf_decodeFields (acZero_iff s.regs) false 0x004)

/-- SZE: decode's transfers, and the skip with E = 0 (R181). -/
theorem exec_sze (s : State) :
    exec .sze s = .next (s.mapRegs fun g => { g with
      ar := 0x002, i := false, pc := if s.regs.e = false then g.pc + 1 else g.pc }) :=
  congrArg Host.Outcome.next (State.skipIf_decodeFields (eZero_iff s.regs) false 0x002)

/-- HLT: decode's transfers, and H set (R182). -/
theorem exec_hlt (s : State) :
    exec .hlt s = .next (s.mapRegs fun g => { g with ar := 0x001, i := false, h := true }) := rfl

/-- An unassigned word: decode's transfers alone (R183). -/
theorem exec_unassigned (group : Bool) (low : Addr) (s : State) :
    exec (.unassigned group low) s = .next (s.mapRegs fun g => { g with ar := low, i := group }) := rfl

/-- Settles O10: each meaning is one register transfer. -/
theorem clearResults : Obligations.ClearResults :=
  fun s => ⟨exec_cla s, exec_cle s, exec_cme s⟩

/-- Settles O12: each meaning is one register transfer. -/
theorem circulateResults : Obligations.CirculateResults :=
  fun s => ⟨exec_cir s, exec_cil s⟩

/-- Settles O14: the meaning is one register transfer, whose E is read by the value of INC_SETS_E. -/
theorem incResult : Obligations.IncResult :=
  exec_inc

/-- Settles O15: the four skips are one register transfer each, with their conditions read as ranges of AC or as E. -/
theorem accumulatorSkipResults : Obligations.AccumulatorSkipResults :=
  fun s => ⟨exec_spa s, exec_sna s, exec_sza s, exec_sze s⟩

/-- Settles O16: the meaning is one register transfer. -/
theorem hltResult : Obligations.HltResult := exec_hlt

/-- Settles O17: the meaning is one register transfer, decode's own. -/
theorem unassignedResult : Obligations.UnassignedResult := exec_unassigned

/-! ### The input/output instructions -/

/-- INP: decode's transfers, INPR in AC as INP_HIGH says, and FGI cleared (R191). -/
theorem exec_inp (s : State) :
    exec .inp s = .next (s.mapRegs fun g => { g with
      ar := 0x800, i := true, ac := inputToAc s.params.inpHigh g.ac g.inpr, fgi := false }) := rfl

/-- OUT: decode's transfers, the low byte of AC in OUTR, and FGO as OUT_CLEARS_FGO says (R192). -/
theorem exec_out (s : State) :
    exec .out s = .next (s.mapRegs fun g => { g with
      ar := 0x400, i := true, outr := outputByte g.ac, fgo := if s.params.outClearsFgo then false else g.fgo }) := rfl

/-- SKI: decode's transfers, and the skip with FGI = 1 (R193). -/
theorem exec_ski (s : State) :
    exec .ski s = .next (s.mapRegs fun g => { g with
      ar := 0x200, i := true, pc := if s.regs.fgi = true then g.pc + 1 else g.pc }) := rfl

/-- SKO: decode's transfers, and the skip with FGO = 1 (R194). -/
theorem exec_sko (s : State) :
    exec .sko s = .next (s.mapRegs fun g => { g with
      ar := 0x100, i := true, pc := if s.regs.fgo = true then g.pc + 1 else g.pc }) := rfl

/-- ION: decode's transfers, and IEN set (R195). -/
theorem exec_ion (s : State) :
    exec .ion s = .next (s.mapRegs fun g => { g with ar := 0x080, i := true, ien := true }) := rfl

/-- IOF: decode's transfers, and IEN cleared (R196). -/
theorem exec_iof (s : State) :
    exec .iof s = .next (s.mapRegs fun g => { g with ar := 0x040, i := true, ien := false }) := rfl

/-- Settles O18: the meaning is one register transfer, whose AC is read by the value of INP_HIGH. -/
theorem inpResult : Obligations.InpResult := by
  intro s
  rw [exec_inp, ← inputToAc_eq]
  rfl

/-- Settles O19: the meaning is one register transfer, and the byte copied is the low one. -/
theorem outResult : Obligations.OutResult := by
  intro s
  have hbyte : outputByte s.regs.ac = s.regs.ac.setWidth 8 := by
    ext k
    simp [outputByte]
  rw [exec_out, ← hbyte]
  rfl

/-- Settles O20: each meaning is one register transfer. -/
theorem flagInstructionResults : Obligations.FlagInstructionResults :=
  fun s => ⟨exec_ski s, exec_sko s, exec_ion s, exec_iof s⟩

end Sys2Proof.Machine
end

section
/-! SUPPORT. Which instruction writes which register, one lemma per register, and the proof of O21 (spec/10_state.md
sections 2 to 6, spec/40_instruction_cycle.md sections 5 and 9). -/

namespace Sys2Proof.Machine

/-- The opcode and bit 15 of every instruction's word. -/
theorem encodedFields (i : Instr) : Laws.EncodedFields.Statement i := by
  cases i with
  | and ind adr | add ind adr | lda ind adr | sta ind adr | bun ind adr | bsa ind adr | isz ind adr =>
    exact Laws.EncodedFields.joined ind _ adr
  | unassigned group low => exact Laws.EncodedFields.joined group _ low
  | _ => exact ⟨rfl, rfl⟩

/-- AC is written by AND, ADD and LDA, by CLA, CMA, CIR, CIL and INC, and by INP (R23). -/
theorem exec_ac {i : Instr} {s t : State} (h : exec i s = .next t)
    (hmemory : ∀ ind adr, i ≠ .and ind adr ∧ i ≠ .add ind adr ∧ i ≠ .lda ind adr)
    (hregister : i ∉ [.cla, .cma, .cir, .cil, .inc, .inp]) : t.regs.ac = s.regs.ac := by
  cases i with
  | and ind adr | add ind adr | lda ind adr => simpa using hmemory ind adr
  | cla | cma | cir | cil | inc | inp => simp at hregister
  | sta ind adr | bun ind adr | bsa ind adr | isz ind adr =>
    cases h
    rw [State.decodeOperand_eq]
    rfl
  | _ =>
    cases h
    rfl

/-- E is written by ADD, by CLE, CME, CIR and CIL, and by INC under INC_SETS_E (R30). -/
theorem exec_e {i : Instr} {s t : State} (h : exec i s = .next t) (hadd : ∀ ind adr, i ≠ .add ind adr)
    (hregister : i ∉ [.cle, .cme, .cir, .cil]) (hinc : i = .inc → s.params.incSetsE = false) :
    t.regs.e = s.regs.e := by
  cases i with
  | add ind adr => exact absurd rfl (hadd ind adr)
  | cle | cme | cir | cil => simp at hregister
  | inc =>
    cases (exec_inc s).symm.trans h
    simp [incFlagE, hinc rfl]
  | and ind adr | lda ind adr | sta ind adr | bun ind adr | bsa ind adr | isz ind adr =>
    cases h
    rw [State.decodeOperand_eq]
    rfl
  | _ =>
    cases h
    rfl

/-- PC is written by BUN, BSA and ISZ and by the skips (R27). -/
theorem exec_pc {i : Instr} {s t : State} (h : exec i s = .next t)
    (hmemory : ∀ ind adr, i ≠ .bun ind adr ∧ i ≠ .bsa ind adr ∧ i ≠ .isz ind adr)
    (hskip : i ∉ [.spa, .sna, .sza, .sze, .ski, .sko]) : t.regs.pc = s.regs.pc := by
  cases i with
  | bun ind adr | bsa ind adr | isz ind adr => simpa using hmemory ind adr
  | spa | sna | sza | sze | ski | sko => simp at hskip
  | and ind adr | add ind adr | lda ind adr | sta ind adr =>
    cases h
    rw [State.decodeOperand_eq]
    rfl
  | _ =>
    cases h
    rfl

/-- MAR is written by the memory-reference instructions (R25). -/
theorem exec_mar {i : Instr} {s t : State} (h : exec i s = .next t) (hseven : i.opcode = 7) :
    t.regs.mar = s.regs.mar := by
  cases i with
  | and | add | lda | sta | bun | bsa | isz => cases hseven
  | _ =>
    cases h
    rfl

/-- IEN is written by ION and IOF (R32). -/
theorem exec_ien {i : Instr} {s t : State} (h : exec i s = .next t) (hion : i ≠ .ion) (hiof : i ≠ .iof) :
    t.regs.ien = s.regs.ien := by
  cases i with
  | ion | iof => contradiction
  | and ind adr | add ind adr | lda ind adr | sta ind adr | bun ind adr | bsa ind adr | isz ind adr =>
    cases h
    rw [State.decodeOperand_eq]
    rfl
  | _ =>
    cases h
    rfl

/-- FGI is written by INP (R33). -/
theorem exec_fgi {i : Instr} {s t : State} (h : exec i s = .next t) (hinp : i ≠ .inp) : t.regs.fgi = s.regs.fgi := by
  cases i with
  | inp => contradiction
  | and ind adr | add ind adr | lda ind adr | sta ind adr | bun ind adr | bsa ind adr | isz ind adr =>
    cases h
    rw [State.decodeOperand_eq]
    rfl
  | _ =>
    cases h
    rfl

/-- FGO and OUTR are written by OUT (R33, R35). -/
theorem exec_fgo_outr {i : Instr} {s t : State} (h : exec i s = .next t) (hout : i ≠ .out) :
    t.regs.fgo = s.regs.fgo ∧ t.regs.outr = s.regs.outr := by
  cases i with
  | out => contradiction
  | and ind adr | add ind adr | lda ind adr | sta ind adr | bun ind adr | bsa ind adr | isz ind adr =>
    cases h
    rw [State.decodeOperand_eq]
    exact ⟨rfl, rfl⟩
  | _ =>
    cases h
    exact ⟨rfl, rfl⟩

/-- H is written by HLT (R38). -/
theorem exec_h {i : Instr} {s t : State} (h : exec i s = .next t) (hhlt : i ≠ .hlt) : t.regs.h = s.regs.h := by
  cases i with
  | hlt => contradiction
  | and ind adr | add ind adr | lda ind adr | sta ind adr | bun ind adr | bsa ind adr | isz ind adr =>
    cases h
    rw [State.decodeOperand_eq]
    rfl
  | _ =>
    cases h
    rfl

/-- I is written by every instruction, with bit 15 of its word (R29). -/
theorem exec_i {i : Instr} {s t : State} (h : exec i s = .next t) : t.regs.i = i.topBit := by
  cases i with
  | and ind adr | add ind adr | lda ind adr | sta ind adr | bun ind adr | bsa ind adr | isz ind adr =>
    cases h
    rw [State.decodeOperand_eq]
    rfl
  | _ =>
    cases h
    rfl

/-- AR is the low 12 bits of an opcode-7 word, and the effective address of a memory-reference instruction, which BSA
increments (R28). -/
theorem exec_ar {i : Instr} {s t : State} (h : exec i s = .next t) (hbsa : ∀ ind adr, i ≠ .bsa ind adr) :
    t.regs.ar = if i.opcode = 7 then addressField (encode i)
      else s.effectiveAddress i.topBit (addressField (encode i)) := by
  cases i with
  | bsa ind adr => exact absurd rfl (hbsa ind adr)
  | and ind adr | add ind adr | lda ind adr | sta ind adr | bun ind adr | isz ind adr =>
    cases h
    rw [encode, addressField_joinFields, State.decodeOperand_eq]
    rfl
  | unassigned group low =>
    cases h
    rw [encode, addressField_joinFields]
    rfl
  | _ =>
    cases h
    rfl

/-- No instruction writes IR, DR, TR, R or INPR (R22, R24, R26, R31, R34). -/
theorem exec_untouched {i : Instr} {s t : State} (h : exec i s = .next t) :
    t.regs.ir = s.regs.ir ∧ t.regs.dr = s.regs.dr ∧ t.regs.tr = s.regs.tr ∧ t.regs.r = s.regs.r ∧
      t.regs.inpr = s.regs.inpr := by
  cases i with
  | and ind adr | add ind adr | lda ind adr | sta ind adr | bun ind adr | bsa ind adr | isz ind adr =>
    cases h
    rw [State.decodeOperand_eq]
    exact ⟨rfl, rfl, rfl, rfl, rfl⟩
  | _ =>
    cases h
    exact ⟨rfl, rfl, rfl, rfl, rfl⟩

/-- Settles O21: one lemma per register, and the opcode and bit 15 of the instruction's word. -/
theorem registerWriters : Obligations.RegisterWriters := by
  intro i s t h
  obtain ⟨hopcode, htop⟩ := encodedFields i
  rw [hopcode, htop]
  exact ⟨exec_ac h, exec_e h, exec_pc h, exec_mar h, exec_ien h, exec_fgi h, exec_fgo_outr h, exec_h h, exec_i h,
    exec_ar h, exec_untouched h⟩

end Sys2Proof.Machine
end

section
/-! SUPPORT. The carry of ADD and the 17-bit ring of E and AC, and the proofs of O22 and O13
(spec/70_reset_and_hazards.md section 3, spec/42_register_reference.md section 2). -/

namespace Sys2Proof.Machine

/-! ### The carry -/

/-- The AND of the top bits against the carry: they differ when exactly one top bit is 1 and the sum wraps all the
same. -/
theorem topBits_and_ne_carry_iff (a b : Word) :
    (a.getLsbD 15 && b.getLsbD 15) ≠ decide (65536 ≤ a.toNat + b.toNat) ↔
      a.getLsbD 15 ≠ b.getLsbD 15 ∧ 65536 ≤ a.toNat + b.toNat := by
  rw [getLsbD_fifteen, getLsbD_fifteen]
  have ha := a.isLt
  have hb := b.isLt
  by_cases hatop : 0x8000 ≤ a.toNat <;> by_cases hbtop : 0x8000 ≤ b.toNat
  · simp only [hatop, hbtop, decide_true, Bool.and_self, ne_eq, not_true_eq_false, false_and, iff_false, not_not]
    exact (decide_eq_true (by omega)).symm
  · simp [hatop, hbtop]
  · simp [hatop, hbtop]
  · simp only [hatop, hbtop, decide_false, Bool.and_self, ne_eq, not_true_eq_false, false_and, iff_false, not_not]
    exact (decide_eq_false (by omega)).symm

/-- Settles O22: with ADD_E_OPERAND = MAR the E of ADD is the AND of the top bits of AC and MAR. -/
theorem addFlagAgainstCarry : Obligations.AddFlagAgainstCarry := by
  intro ind adr s t hmar h
  cases (exec_add ind adr s).symm.trans h
  simp only [State.mapRegs_regs, hmar, addFlagE]
  exact topBits_and_ne_carry_iff ..

/-! ### The ring -/

/-- E and AC, which the circulates move (R175, R176). -/
abbrev Ring := Bool × Word

/-- The E and AC of a register file. -/
def Registers.ring (g : Registers) : Ring := (g.e, g.ac)

/-- Bit `k` of the ring of 17 bits: AC[k], and E above AC[15]. -/
def Ring.bit (p : Ring) (k : Nat) : Bool := if k < 16 then p.2.getLsbD k else p.1

/-- CIR's effect on the ring. -/
def Ring.right (p : Ring) : Ring := (p.2.getLsbD 0, circulateRight p.1 p.2)

/-- CIL's effect on the ring. -/
def Ring.left (p : Ring) : Ring := (p.2.getLsbD 15, circulateLeft p.1 p.2)

/-- The 17 bits determine the ring. -/
theorem Ring.ext_bit {p q : Ring} (h : ∀ k < 17, p.bit k = q.bit k) : p = q := by
  refine Prod.ext (by simpa [Ring.bit] using h 16 (by omega)) (BitVec.eq_of_getLsbD_eq fun k hk => ?_)
  simpa [Ring.bit, hk] using h k (by omega)

theorem getLsbD_circulateRight (e : Bool) (ac : Word) (k : Nat) :
    (circulateRight e ac).getLsbD k = if k = 15 then e else (ac.extractLsb' 1 15).getLsbD k :=
  BitVec.getLsbD_cons ..

theorem getLsbD_circulateLeft (e : Bool) (ac : Word) (k : Nat) :
    (circulateLeft e ac).getLsbD k = if k = 0 then e else (ac.extractLsb' 0 15).getLsbD (k - 1) :=
  BitVec.getLsbD_concat ..

/-- A circulate right moves every bit one place down the ring. -/
theorem Ring.bit_right (p : Ring) {k : Nat} (hk : k < 17) : p.right.bit k = p.bit ((k + 1) % 17) := by
  obtain hlow | rfl | rfl : k < 15 ∨ k = 15 ∨ k = 16 := by omega
  · rw [Nat.mod_eq_of_lt (by omega), Ring.bit, Ring.bit, if_pos (by omega), if_pos (by omega), Ring.right,
      getLsbD_circulateRight, if_neg (by omega), BitVec.getLsbD_extractLsb', Nat.add_comm 1 k]
    simp only [hlow, decide_true, Bool.true_and]
  · exact getLsbD_circulateRight ..
  · rfl

/-- A circulate left moves every bit one place up the ring. -/
theorem Ring.bit_left (p : Ring) {k : Nat} (hk : k < 17) : p.left.bit ((k + 1) % 17) = p.bit k := by
  obtain hlow | rfl | rfl : k < 15 ∨ k = 15 ∨ k = 16 := by omega
  · rw [Nat.mod_eq_of_lt (by omega), Ring.bit, Ring.bit, if_pos (by omega), if_pos (by omega), Ring.left,
      getLsbD_circulateLeft, if_neg (by omega), BitVec.getLsbD_extractLsb', Nat.add_sub_cancel, Nat.zero_add]
    simp only [hlow, decide_true, Bool.true_and]
  · rfl
  · exact getLsbD_circulateLeft ..

/-- A circulate left takes a circulate right back. -/
theorem Ring.left_right (p : Ring) : p.right.left = p := by
  refine Ring.ext_bit fun k hk => ?_
  have hplace : ((k + 16) % 17 + 1) % 17 = k := by omega
  have hback := Ring.bit_left p.right (k := (k + 16) % 17) (by omega)
  rwa [Ring.bit_right p (by omega), hplace] at hback

/-- A circulate right takes a circulate left back. -/
theorem Ring.right_left (p : Ring) : p.left.right = p :=
  Ring.ext_bit fun _ hk => (Ring.bit_right p.left hk).trans (Ring.bit_left p hk)

/-- `n` circulates right move every bit `n` places down the ring. -/
theorem Ring.bit_iterate_right (p : Ring) (n : Nat) {k : Nat} (hk : k < 17) :
    (Ring.right^[n] p).bit k = p.bit ((k + n) % 17) := by
  induction n generalizing k with
  | zero => rw [Function.iterate_zero_apply, Nat.add_zero, Nat.mod_eq_of_lt hk]
  | succ n ih =>
    rw [Function.iterate_succ_apply', Ring.bit_right _ hk, ih (by omega)]
    congr 1
    omega

/-- Seventeen circulates right are none. -/
theorem Ring.iterate_right_seventeen (p : Ring) : Ring.right^[17] p = p :=
  Ring.ext_bit fun k hk => by rw [Ring.bit_iterate_right p 17 hk, Nat.add_mod_right, Nat.mod_eq_of_lt hk]

/-- Seventeen circulates left are none: they take seventeen circulates right back, which were none. -/
theorem Ring.iterate_left_seventeen (p : Ring) : Ring.left^[17] p = p := by
  have hback := Function.LeftInverse.iterate Ring.left_right 17 p
  rwa [Ring.iterate_right_seventeen] at hback

/-! ### The circulates as meanings -/

/-- A circulate: decode's AR, I = 0, and the ring moved. -/
def circulated (low : Addr) (move : Ring → Ring) (g : Registers) : Registers :=
  { g with ar := low, i := false, e := (move g.ring).1, ac := (move g.ring).2 }

theorem exec_cir_ring (s : State) : exec .cir s = .next (s.mapRegs (circulated 0x080 Ring.right)) := rfl

theorem exec_cil_ring (s : State) : exec .cil s = .next (s.mapRegs (circulated 0x040 Ring.left)) := rfl

/-- Circulates in a row move the ring as often; decode writes AR and I each time. -/
theorem execTimes_circulated {i : Instr} {low : Addr} {move : Ring → Ring}
    (hexec : ∀ s, exec i s = .next (s.mapRegs (circulated low move))) (n : Nat) (s : State) :
    execTimes i (n + 1) s = .next (s.mapRegs (circulated low move^[n + 1])) := by
  induction n generalizing s with
  | zero => rw [execTimes, hexec]; rfl
  | succ n ih => rw [execTimes, hexec]; exact ih _

/-- Circulates that bring the ring back leave everything as it was but AR and I. -/
theorem circulated_of_fixed {low : Addr} {move : Ring → Ring} {g : Registers} (h : move g.ring = g.ring) :
    circulated low move g = { g with ar := low, i := false } := by
  rw [circulated, h]
  rfl

/-- Settles O13: on the ring the two circulates are inverse, and seventeen of either are none. -/
theorem circulatesRestore : Obligations.CirculatesRestore := by
  refine ⟨fun s t u hcir hcil => ?_, fun s t u hcil hcir => ?_, fun s => ⟨?_, ?_⟩⟩
  · cases (exec_cir_ring s).symm.trans hcir
    cases (exec_cil_ring _).symm.trans hcil
    have hring := Ring.left_right s.regs.ring
    exact ⟨congrArg Prod.snd hring, congrArg Prod.fst hring⟩
  · cases (exec_cil_ring s).symm.trans hcil
    cases (exec_cir_ring _).symm.trans hcir
    have hring := Ring.right_left s.regs.ring
    exact ⟨congrArg Prod.snd hring, congrArg Prod.fst hring⟩
  · rw [execTimes_circulated exec_cir_ring, State.mapRegs,
      circulated_of_fixed (Ring.iterate_right_seventeen s.regs.ring)]
  · rw [execTimes_circulated exec_cil_ring, State.mapRegs,
      circulated_of_fixed (Ring.iterate_left_seventeen s.regs.ring)]

end Sys2Proof.Machine
end

section
/-! SUPPORT. The two cycles of an accepted STEP field by field, and the proofs of O23 to O26, O29 to O36 and O43
(spec/40_instruction_cycle.md, spec/60_exceptions.md). -/

namespace Sys2Proof.Machine

/-! ### The address field of a word -/

/-- The address field of a word is its low 12 bits (R81). -/
theorem addressField_eq_setWidth (w : Word) : addressField w = w.setWidth 12 := by
  ext k
  simp [addressField]

/-- The address field of a stored PC is that PC: the zero extension loses nothing (R62, R84). -/
@[simp] theorem addressField_storedPc (pc : Addr) : addressField (storedPc pc) = pc := by
  rw [addressField_eq_setWidth, storedPc, BitVec.setWidth_setWidth_of_le _ (by omega), BitVec.setWidth_eq]

/-- BUN indirect goes to the address the pointer word holds (R150, R155). -/
theorem exec_bun_indirect_pc {adr : Addr} {s t : State} (h : exec (.bun true adr) s = .next t) :
    t.regs.pc = addressField (s.mem.read adr) := by
  cases (exec_bun true adr s).symm.trans h
  rfl

/-- Settles O23: BSA stored its PC zero-extended in the word BUN takes as its pointer. -/
theorem subroutineReturns : Obligations.SubroutineReturns := by
  intro ind adr s t u v wf hbsa hmem hbun
  cases (exec_bsa ind adr s).symm.trans hbsa
  rw [exec_bun_indirect_pc hbun, hmem, State.mapRegs_mem, State.memWrite_mem, Memory.read_write_same wf,
    addressField_storedPc]

/-! ### The end of a step -/

@[simp] theorem State.finishStep_mem (s : State) (pc : Addr) (h interrupt : Bool) :
    (s.finishStep pc h interrupt).mem = s.mem := rfl
@[simp] theorem State.finishStep_reply (s : State) (pc : Addr) (h interrupt : Bool) :
    (s.finishStep pc h interrupt).reply = some (.stepOutcome s.regs interrupt s.regs.h) := rfl

/-- An accepted STEP completes. -/
theorem performStep_next (x : Config.HostInputs) (s : State) : ∃ t, performStep x s = .next t := by
  obtain ⟨-, hp⟩ | ⟨-, u, -, -, hp⟩ := performStep_cases x s
  · exact ⟨_, hp⟩
  · exact ⟨_, hp⟩

/-- What an accepted STEP leaves alone: LOADED, the parameters and the pending commands. -/
theorem performStep_outside {x : Config.HostInputs} {s t : State} (h : performStep x s = .next t) :
    t.loaded = s.loaded ∧ t.params = s.params ∧ t.host = s.host := by
  obtain ⟨-, hp⟩ | ⟨-, u, -, same, hp⟩ := performStep_cases x s
  · cases hp.symm.trans h
    exact ⟨rfl, rfl, rfl⟩
  · cases hp.symm.trans h
    exact ⟨same.loaded, same.params, same.host⟩

/-- An accepted STEP keeps the canonical form of memory. -/
theorem performStep_mem_wf {x : Config.HostInputs} {s t : State} (wf : s.mem.wf = true)
    (h : performStep x s = .next t) : t.mem.wf = true := by
  obtain ⟨-, hmem⟩ | ⟨d, v, -, hmem⟩ := performStep_memory h
  · exact hmem ▸ wf
  · exact hmem ▸ Memory.write_wf wf d.address v

/-- The StepOutcome of an accepted STEP (R207). -/
theorem performStep_reply {x : Config.HostInputs} {s t : State} (h : performStep x s = .next t) :
    t.reply = some (.stepOutcome t.regs s.regs.r t.regs.h) := by
  obtain ⟨hr, hp⟩ | ⟨hr, u, -, -, hp⟩ := performStep_cases x s
  · cases hp.symm.trans h
    rw [State.finishStep_reply, State.finishStep_regs, hr]
  · cases hp.symm.trans h
    rw [State.finishStep_reply, State.finishStep_regs, hr]

/-- Settles O36: the pending STEP is performed, and its reply is the StepOutcome. -/
theorem stepOutcomeReported : Obligations.StepOutcomeReported := by
  intro x rest s t pending hstep
  rw [step_of_stepPending pending] at hstep
  exact performStep_reply (s := { s with host := rest }) hstep

/-- An accepted STEP starts from the latched state, and of the state before the latch sees PC and H alone (R130). -/
theorem performStep_of_latch_eq {x : Config.HostInputs} {s s' : State} (hlatch : s'.latch x = s.latch x)
    (hpc : s'.regs.pc = s.regs.pc) (hh : s'.regs.h = s.regs.h) : performStep x s' = performStep x s := by
  simp only [performStep, hlatch, hpc, hh]

/-- Settles O32: the latch overwrites FGI, FGO and INPR before anything reads them. -/
theorem oldInputsDoNotMatter : Obligations.OldInputsDoNotMatter := by
  intro x rest fgi fgo inpr s pending
  have pending' : State.StepPending { s with regs := { s.regs with fgi := fgi, fgo := fgo, inpr := inpr } } x rest :=
    pending
  rw [step_of_stepPending pending, step_of_stepPending pending']
  exact performStep_of_latch_eq rfl rfl rfl

/-! ### The interrupt-service cycle -/

/-- The frame test after an interrupt: no frame exactly when PC was 1 already and H was 1 (R211). -/
theorem pushesFrame_interrupt_iff (pc : Addr) (h : Bool) :
    pushesFrame pc h 1 = true ↔ ¬(pc = 1 ∧ h = true) := by
  rw [pushesFrame_iff, not_and_or, Bool.not_eq_true]
  exact or_congr_left ⟨Ne.symm, Ne.symm⟩

/-- Settles O26: the interrupt-service cycle, then the frame test at PC = 1. -/
theorem interruptServiceStep : Obligations.InterruptServiceStep := by
  intro x rest s pending hr
  refine ⟨_, rfl, ?_⟩
  rw [step_of_interruptStepPending pending hr, State.finishStep_eq, State.interruptService_eq]
  simp only [pushesFrame_interrupt_iff, ite_not]
  rfl

/-- Settles O24: the interrupt stored its PC zero-extended in the word BUN 0 I takes as its pointer, and BUN does not
write IEN. -/
theorem interruptReturns : Obligations.InterruptReturns := by
  intro x s t u v wf haccepts hr hrun hmem hbun
  have hrun' : performStep x s = .next t := (if_pos haccepts).symm.trans hrun
  cases (performStep_interrupt hr).symm.trans hrun'
  have hdecode : decode 0xC000 = .bun true 0 := by decide
  rw [hdecode] at hbun
  refine ⟨?_, exec_ien hbun nofun nofun⟩
  rw [exec_bun_indirect_pc hbun, hmem, State.finishStep_mem, State.interruptService_eq]
  exact (congrArg addressField (Memory.read_write_same wf 0 _)).trans (addressField_storedPc s.regs.pc)

/-! ### The normal cycle -/

/-- Settles O25: a pending STEP with R = 0 runs the instruction at PC. -/
theorem stepRunsDecodedInstruction : Obligations.StepRunsDecodedInstruction := by
  rintro x rest i s t pending rfl - hexec
  exact step_of_normalStepPending pending hexec

/-- What a normal cycle does: an instruction's meaning on the state fetch leaves, R recomputed and PC parked. -/
theorem performStep_normal_inv {x : Config.HostInputs} {s t : State} (hr : s.regs.r = false)
    (h : performStep x s = .next t) :
    ∃ u, exec (decode (s.mem.read s.regs.pc)) (s.latch x).fetch = .next u ∧ t.mem = u.mem ∧
      t.regs = { u.regs with
        r := u.regs.ien && (u.regs.fgi || u.regs.fgo)
        pc := if s.mem.read s.regs.pc = 0x7001 then u.regs.pc - 1 else u.regs.pc } := by
  obtain ⟨u, hu, -⟩ := exec_next (decode (s.mem.read s.regs.pc)) (s.latch x).fetch
  cases (performStep_normal hr hu).symm.trans h
  obtain ⟨hir, -⟩ := exec_untouched hu
  have hword : u.regs.ir = s.mem.read s.regs.pc := hir
  refine ⟨u, hu, rfl, ?_⟩
  rw [State.finishStep_regs, State.closeCycle_eq, State.mapRegs_regs, ← hword]
  rfl

/-- Bit 15 and the opcode of the decoded instruction are the word's. -/
theorem decode_topBit_opcode (w : Word) :
    (decode w).topBit = indirectBit w ∧ (decode w).opcode = opcodeField w := by
  obtain ⟨hopcode, htop⟩ := encodedFields (decode w)
  rw [(encodeInvertsDecode w).2] at hopcode htop
  exact ⟨htop.symm, hopcode.symm⟩

/-- Settles O29: execute leaves IR alone, writes I with bit 15 of the word, and for opcode 7 AR with its low 12 bits and
not MAR. -/
theorem decodeTransfers : Obligations.DecodeTransfers := by
  intro x rest s t pending hstep
  obtain ⟨hstepPending, hr⟩ := pending
  rw [step_of_stepPending hstepPending] at hstep
  obtain ⟨u, hu, -, hregs⟩ := performStep_normal_inv (s := { s with host := rest }) hr hstep
  obtain ⟨htop, hopcode⟩ := decode_topBit_opcode (s.mem.read s.regs.pc)
  rw [hregs]
  refine ⟨(exec_untouched hu).1, (exec_i hu).trans htop, fun hseven => ⟨?_, exec_mar hu (hopcode.trans hseven)⟩⟩
  have hbsa : ∀ ind adr, decode (s.mem.read s.regs.pc) ≠ .bsa ind adr := fun ind adr h => by
    rw [h, opcodeField, hseven] at hopcode
    cases hopcode
  refine (exec_ar hu hbsa).trans ?_
  rw [if_pos (hopcode.trans hseven), (encodeInvertsDecode _).2]
  exact addressField_eq_setWidth _

/-- A STEP at a word outside the 18 patterns of opcode 7 is a STEP at an unassigned word. -/
theorem decode_of_no_pattern {w : Word} (hseven : opcodeField w = 7) (hnone : w ∉ fixedRows.map (·.word)) :
    decode w = .unassigned (indirectBit w) (addressField w) := by
  rw [decode_of_opcode_seven hseven]
  obtain ⟨row, hrow, hword, -⟩ | ⟨-, hdecode⟩ := decodeFixed_cases w
  · exact absurd (hword ▸ List.mem_map_of_mem hrow) hnone
  · exact hdecode

/-- Settles O30: fetch, decode's AR and I, and the close of the cycle; PC moves on, so a frame is pushed. -/
theorem unassignedStep : Obligations.UnassignedStep := by
  rintro x rest w s ⟨pending, hr⟩ rfl hseven hnone
  have hdecode := decode_of_no_pattern hseven hnone
  have hpark : s.mem.read s.regs.pc ≠ 0x7001 := fun h => by simp [h] at hnone
  have hmoved : s.regs.pc + 1 ≠ s.regs.pc := by bv_omega
  obtain ⟨t, ht⟩ := performStep_next x { s with host := rest }
  obtain ⟨u, hu, hmem, hregs⟩ := performStep_normal_inv (s := { s with host := rest }) hr ht
  have hdiff : State.stepDiff { s with host := rest } = none := by
    rw [State.stepDiff_normal (s := { s with host := rest }) hr]
    exact congrArg (fun i => Option.map (State.diffAt _) (State.storeAddress _ i)) hdecode
  rw [hdecode] at hu
  cases (exec_unassigned _ _ _).symm.trans hu
  rw [if_neg hpark, addressField_eq_setWidth] at hregs
  have hhist := performStep_hist ht
  have hreply := performStep_reply ht
  rw [if_pos (.inl (hregs ▸ hmoved)), hdiff] at hhist
  have hh : t.regs.h = s.regs.h := by rw [hregs]; rfl
  rw [hh] at hreply
  exact ⟨t, (step_of_stepPending pending).trans ht, hmem, hregs, hhist, hr ▸ hreply⟩

end Sys2Proof.Machine
end

section
/-! SUPPORT. The halt and the request over one and more STEPs, and the proofs of O31, O33, O34, O35 and O43
(spec/60_exceptions.md sections 2 to 4 and 7). -/

namespace Sys2Proof.Machine

/-! ### The STEP command -/

/-- What a STEP command can do: it is performed, or it is refused and answers StateError (R203, R206). -/
theorem runCommand_step_cases {x : Config.HostInputs} {s t : State} (h : runCommand (.step x) s = .next t) :
    (s.acceptsStep = true ∧ performStep x s = .next t) ∨ (s.acceptsStep = false ∧ t = s.answer .stateError) := by
  cases haccepts : s.acceptsStep with
  | true => exact .inl ⟨rfl, (if_pos haccepts).symm.trans h⟩
  | false =>
    cases (stepCommand_of_refused haccepts x).symm.trans h
    exact .inr ⟨rfl, rfl⟩

/-- With HIST_DEPTH frames in the history no STEP is accepted (U9). -/
theorem State.acceptsStep_of_full {s : State} {depth : Nat} (hdepth : s.params.histDepth = some depth)
    (hfull : depth ≤ s.hist.length) : s.acceptsStep = false := by
  have hhistory : s.historyFull = true := by
    rw [State.historyFull, hdepth]
    exact decide_eq_true hfull
  rw [State.acceptsStep, hhistory, Bool.not_true, Bool.and_false]

/-- Settles O43: the pending STEP is refused, because the history has no room. -/
theorem stepRefusedWhenHistoryFull : Obligations.StepRefusedWhenHistoryFull := by
  intro x rest depth s hhost hdepth hfull
  have hrefused : State.acceptsStep { s with host := rest } = false := State.acceptsStep_of_full hdepth hfull
  rw [step_of_pending hhost]
  exact stepCommand_of_refused hrefused x

/-- Commands one after the other: the first, then the rest. -/
theorem runAll_cons {c : Command} {rest : List Command} {s t : State} (h : runAll (c :: rest) s = .next t) :
    ∃ u, runCommand c s = .next u ∧ runAll rest u = .next t := by
  rw [runAll] at h
  cases hc : runCommand c s with
  | next u =>
    rw [hc] at h
    exact ⟨u, rfl, h⟩
  | fault reason =>
    rw [hc] at h
    cases h
  | refused reason =>
    rw [hc] at h
    cases h

/-! ### The halt -/

/-- An accepted STEP at HLT: PC is parked where it was, so only a STEP from H = 0 pushes a frame (R140, R182). -/
theorem performStep_hlt {x : Config.HostInputs} {s t : State} (hr : s.regs.r = false)
    (hword : s.mem.read s.regs.pc = 0x7001) (h : performStep x s = .next t) :
    t.mem = s.mem ∧
    t.regs = { s.regs with
      fgi := x.fgi, fgo := x.fgo, inpr := x.inpr, ir := 0x7001, mar := 0x7001, ar := 0x001, i := false, h := true,
      r := s.regs.ien && (x.fgi || x.fgo) } ∧
    t.hist = if s.regs.h = true then s.hist else ⟨t.regs, none⟩ :: s.hist := by
  have hdecode : decode 0x7001 = .hlt := by decide
  have hdiff : s.stepDiff = none := by
    rw [State.stepDiff_normal hr, hword, hdecode]
    rfl
  have hhist := performStep_hist h
  obtain ⟨u, hu, hmem, hregs⟩ := performStep_normal_inv hr h
  rw [hword, hdecode] at hu
  cases (exec_hlt _).symm.trans hu
  have hpc : t.regs.pc = s.regs.pc := by
    rw [hregs, if_pos hword]
    exact BitVec.add_sub_cancel s.regs.pc 1
  refine ⟨hmem, ?_, ?_⟩
  · rw [hregs, if_pos hword]
    simp [State.fetch_eq, hword]
  · rw [hhist, hpc, hdiff]
    cases s.regs.h <;> simp

/-- Settles O31: the pending STEP is performed, at a HLT. -/
theorem hltStepParks : Obligations.HltStepParks := by
  rintro x rest s ⟨pending, hr⟩ hword
  obtain ⟨t, ht⟩ := performStep_next x { s with host := rest }
  exact ⟨t, (step_of_stepPending pending).trans ht, performStep_hlt (s := { s with host := rest }) hr hword ht⟩

/-- Halted at a HLT, with no interrupt enabled or pending (spec/60_exceptions.md section 7). -/
def State.HaltedForGood (s : State) : Prop :=
  s.regs.h = true ∧ s.regs.ien = false ∧ s.regs.r = false ∧ s.mem.read s.regs.pc = 0x7001

/-- A STEP in such a state, accepted or not, keeps it, and PC, memory and the history with it. -/
theorem runCommand_step_haltedForGood {x : Config.HostInputs} {s t : State} (halted : s.HaltedForGood)
    (h : runCommand (.step x) s = .next t) :
    t.HaltedForGood ∧ t.regs.pc = s.regs.pc ∧ t.mem = s.mem ∧ t.hist = s.hist := by
  obtain ⟨-, hp⟩ | ⟨-, rfl⟩ := runCommand_step_cases h
  · obtain ⟨hh, hien, hr, hword⟩ := halted
    obtain ⟨hmem, hregs, hhist⟩ := performStep_hlt hr hword hp
    rw [if_pos hh] at hhist
    refine ⟨?_, by rw [hregs], hmem, hhist⟩
    rw [State.HaltedForGood, hmem, hregs]
    exact ⟨rfl, hien, by rw [hien]; rfl, hword⟩
  · exact ⟨halted, rfl, rfl, rfl⟩

/-- Settles O35, by induction on the sequence of STEPs. -/
theorem haltIsPermanentWhenDisabled : Obligations.HaltIsPermanentWhenDisabled := by
  intro xs
  induction xs with
  | nil =>
    rintro s t hh hien hr - hrun
    cases hrun
    exact ⟨hh, rfl, hien, hr, rfl, rfl⟩
  | cons x xs ih =>
    intro s t hh hien hr hword hrun
    obtain ⟨u, hu, hrest⟩ := runAll_cons hrun
    obtain ⟨⟨hh', hien', hr', hword'⟩, hpc, hmem, hhist⟩ :=
      runCommand_step_haltedForGood ⟨hh, hien, hr, hword⟩ hu
    have hend := ih u t hh' hien' hr' hword' hrest
    rwa [hpc, hmem, hhist] at hend

/-! ### Interrupts -/

/-- With IEN = 0 every instruction but ION leaves IEN = 0. -/
theorem exec_ien_stays_clear {i : Instr} {s t : State} (h : exec i s = .next t) (hien : s.regs.ien = false)
    (hion : i ≠ .ion) : t.regs.ien = false := by
  by_cases hiof : i = .iof
  · subst hiof
    cases (exec_iof s).symm.trans h
    rfl
  · exact (exec_ien h hion hiof).trans hien

/-- Settles O34: execute leaves IEN = 0, so the recomputation of R gives 0. -/
theorem disabledUntilIon : Obligations.DisabledUntilIon := by
  intro x s t hien hr hion h
  obtain ⟨-, hp⟩ | ⟨-, rfl⟩ := runCommand_step_cases h
  · obtain ⟨u, hu, -, hregs⟩ := performStep_normal_inv hr hp
    have hclear : u.regs.ien = false := exec_ien_stays_clear hu hien hion
    rw [hregs]
    exact ⟨hclear, by rw [hclear]; rfl⟩
  · exact ⟨hien, hr⟩

/-- Settles O33: the close of the first step raises R, so the second is the interrupt-service cycle. -/
theorem interruptFollowsRequest : Obligations.InterruptFollowsRequest := by
  rintro x y rest s t u wf ⟨pending, hr⟩ hstep hien hflag haccepts hnext
  rw [step_of_stepPending pending] at hstep
  obtain ⟨-, -, hhost⟩ := performStep_outside hstep
  have hwf : t.mem.wf = true := performStep_mem_wf (s := { s with host := .step y :: rest }) wf hstep
  obtain ⟨v, -, -, hregs⟩ := performStep_normal_inv (s := { s with host := .step y :: rest }) hr hstep
  have hrequest : t.regs.r = true := by
    rw [hregs] at hien hflag ⊢
    exact Bool.and_eq_true_iff.mpr ⟨hien, hflag⟩
  obtain ⟨g, rfl, hservice⟩ := interruptServiceStep y rest t ⟨hhost, haccepts⟩ hrequest
  cases hservice.symm.trans hnext
  exact ⟨hrequest, Memory.read_write_same hwf 0 _, rfl, rfl, rfl⟩

end Sys2Proof.Machine
end

section
/-! SUPPORT. What each Host command can do to the state, the text of a STEP's inputs, and the proofs of O27, O44, O46,
O47, O53 and O54 (spec/50_host_and_history.md sections 1 and 2, spec/31_assembler.md sections 1 and 5). -/

namespace Sys2Proof.Machine

/-! ### The effect of a command -/

/-- The command ends in LOAD_FAIL (R202): it is LOAD_FAIL, or an assembly that fails. -/
def Command.FailsToLoad (c : Command) : Prop :=
  (∃ image failure, c = .loadFail image failure) ∨
    ∃ source image failure, c = .assemble source ∧ assembleSource source = .failed image failure

/-- All that a command can do to the state it runs in (R200). -/
inductive CommandEffect (c : Command) (s : State) : State → Prop
  /-- An accepted STEP, typed or text-level. -/
  | performed {t : State} (x : Config.HostInputs) (haccepts : s.acceptsStep = true)
      (hperform : performStep x s = .next t) : CommandEffect c s t
  /-- LOAD_OK, alone or at the end of an assembly. -/
  | loaded (image : Memory) (reply : Reply) : CommandEffect c s ((s.load image).answer reply)
  /-- LOAD_FAIL, alone or at the end of an assembly. -/
  | loadFailed (image : Memory) (reply : Reply) (hfails : c.FailsToLoad) :
      CommandEffect c s ((s.loadFailed image).answer reply)
  /-- STEP_BACK. -/
  | backed : CommandEffect c s s.stepBack
  /-- A dump, or a refusal. -/
  | answered (reply : Reply) : CommandEffect c s (s.answer reply)

/-- A STEP is performed or refused. -/
theorem stepCommand_effect (c : Command) (x : Config.HostInputs) (s : State) :
    ∃ t, stepCommand x s = .next t ∧ CommandEffect c s t := by
  cases haccepts : s.acceptsStep with
  | true =>
    obtain ⟨t, ht⟩ := performStep_next x s
    exact ⟨t, (if_pos haccepts).trans ht, .performed x haccepts ht⟩
  | false => exact ⟨_, stepCommand_of_refused haccepts x, .answered _⟩

/-- A text-level STEP is the typed STEP, or one of the two errors. -/
theorem stepTextCommand_effect (c : Command) (fgi fgo inpr : List Char) (s : State) :
    ∃ t, stepTextCommand fgi fgo inpr s = .next t ∧ CommandEffect c s t := by
  rw [stepTextCommand]
  cases parseInputs fgi fgo inpr with
  | some x => exact stepCommand_effect c x s
  | none =>
    by_cases hstate : (!s.acceptsStep && Config.stateErrorFirst) = true
    · exact ⟨_, if_pos hstate, .answered _⟩
    · exact ⟨_, if_neg hstate, .answered _⟩

/-- An assembly ends in LOAD_OK or in LOAD_FAIL (spec/31_assembler.md R116, R117). -/
theorem assembleCommand_effect (source : List SourceLine) (s : State) :
    CommandEffect (.assemble source) s (assembleCommand source s) := by
  rw [assembleCommand]
  cases hassembly : assembleSource source with
  | success image symbols => exact .loaded image _
  | failed image failure => exact .loadFailed image _ (.inr ⟨source, image, failure, rfl, hassembly⟩)

/-- Every command completes, with one of the effects. -/
theorem runCommand_effect (c : Command) (s : State) : ∃ t, runCommand c s = .next t ∧ CommandEffect c s t := by
  cases c with
  | loadOk image => exact ⟨_, rfl, .loaded image _⟩
  | loadFail image failure => exact ⟨_, rfl, .loadFailed image _ (.inl ⟨image, failure, rfl⟩)⟩
  | assemble source => exact ⟨_, rfl, assembleCommand_effect source s⟩
  | step x => exact stepCommand_effect _ x s
  | stepText fgi fgo inpr => exact stepTextCommand_effect _ fgi fgo inpr s
  | stepBack => exact ⟨_, rfl, .backed⟩
  | dumpMem => exact ⟨_, rfl, .answered _⟩
  | dumpRegs => exact ⟨_, rfl, .answered _⟩

/-- The effect of the command that was run. -/
theorem CommandEffect.of_run {c : Command} {s t : State} (h : runCommand c s = .next t) : CommandEffect c s t := by
  obtain ⟨u, hu, heffect⟩ := runCommand_effect c s
  cases hu.symm.trans h
  exact heffect

/-- STEP_BACK keeps the parameters. -/
theorem State.stepBack_params (s : State) : s.stepBack.params = s.params := by
  obtain ⟨f, g, older, -, -, hback⟩ | ⟨-, hback⟩ := s.stepBack_cases
  · rw [hback]
  · rw [hback, State.answer_params]

/-- No command changes the parameters (R7). -/
theorem CommandEffect.params {c : Command} {s t : State} (h : CommandEffect c s t) : t.params = s.params := by
  cases h with
  | performed x _ hperform => exact (performStep_outside hperform).2.1
  | loaded | loadFailed | answered => rfl
  | backed => exact s.stepBack_params

/-- Taking the next command from the Host keeps the parameters. -/
theorem State.issued_params (s : State) : s.issued.params = s.params := by
  unfold State.issued
  split <;> rfl

/-- Settles O27: every command completes, and none changes the parameters. -/
theorem stepAlwaysAnswersNext : Obligations.StepAlwaysAnswersNext := by
  intro s
  obtain ⟨t, ht, heffect⟩ := runCommand_effect s.nextCommand s.issued
  exact ⟨t, ht, heffect.params.trans s.issued_params⟩

/-! ### Loads -/

/-- Settles O46: both memories are canonical and have the same words, so they are the same data. -/
theorem loadIsComplete : Obligations.LoadIsComplete := by
  intro image image' s s' t t' hwords hload hload'
  cases hload
  cases hload'
  have hmem : image.ofImage = image'.ofImage :=
    Memory.ext_of_read image.ofImage_wf image'.ofImage_wf fun a => by
      rw [Memory.read_ofImage, Memory.read_ofImage, hwords a]
  exact ⟨hmem, rfl, rfl, rfl⟩

/-- Settles O47: the memory left is the image's canonical form. -/
theorem failedLoadKeepsRegisters : Obligations.FailedLoadKeepsRegisters := by
  intro image failure rest s hhost
  exact ⟨image.ofImage, image.read_ofImage, step_of_pending hhost⟩

/-- Pass 2 writes words and does nothing else to the image, so the image stays canonical. -/
theorem pass2_image_wf (table : List SymbolBinding) (source : List SourceLine) (position lc : Nat) {image : Memory}
    (wf : image.wf = true) : (pass2 table source position lc image).image.wf = true := by
  induction source generalizing position lc image with
  | nil => exact wf
  | cons l rest ih =>
    rw [pass2]
    split
    · exact ih _ _ wf
    · split
      · split
        · exact ih _ _ wf
        · exact wf
      · exact wf
      · split
        · exact wf
        · split
          · exact ih _ _ (Memory.write_wf wf _ _)
          · exact wf

/-- How an assembly fails: in pass 1 with the all-zero image, or in pass 2 with the image written so far (R106). -/
theorem assembleSource_failed {source : List SourceLine} {image : Memory} {failure : SyntaxFailure}
    (h : assembleSource source = .failed image failure) :
    (pass1 source 0 0 [] = .error failure ∧ image = Memory.empty) ∨
      ∃ table, pass1 source 0 0 [] = .ok table ∧ image = (pass2 table source 0 0 Memory.empty).image := by
  rw [assembleSource] at h
  split at h
  · next f hpass1 =>
    cases h
    exact .inl ⟨hpass1, rfl⟩
  · next table hpass1 =>
    refine .inr ⟨table, hpass1, ?_⟩
    split at h
    · cases h
    · next hpass2 =>
      cases h
      rw [hpass2]

/-- The partial image of a failed assembly is canonical. -/
theorem assembleSource_failed_wf {source : List SourceLine} {image : Memory} {failure : SyntaxFailure}
    (h : assembleSource source = .failed image failure) : image.wf = true := by
  obtain ⟨-, rfl⟩ | ⟨table, -, rfl⟩ := assembleSource_failed h
  · rfl
  · exact pass2_image_wf table source 0 0 Memory.empty_wf

/-- A failed assembly is LOAD_FAIL of its partial image, which is the memory it leaves (R117). -/
theorem assembleCommand_of_failed {source : List SourceLine} {image : Memory} {failure : SyntaxFailure}
    (h : assembleSource source = .failed image failure) (s : State) :
    assembleCommand source s = { s with mem := image, reply := some (.syntaxError failure) } := by
  rw [assembleCommand, h]
  simp only [State.answer, State.loadFailed, Memory.ofImage_eq_self (assembleSource_failed_wf h)]

/-- Settles O53: the partial image is the memory left, and it is the empty one when pass 1 failed. -/
theorem failedAssemblyKeepsRegisters : Obligations.FailedAssemblyKeepsRegisters := by
  intro source image failure rest s hassembly hhost
  refine ⟨?_, fun ⟨f, hpass1⟩ a => ?_⟩
  · rw [step_of_pending hhost, runCommand, assembleCommand_of_failed hassembly]
  · obtain ⟨-, rfl⟩ | ⟨table, hok, -⟩ := assembleSource_failed hassembly
    · exact Memory.read_empty a
    · cases hok.symm.trans hpass1

/-- Settles O54: `State.reset` is the load of the image that lists nothing. -/
theorem resetState : Obligations.ResetState :=
  ⟨Memory.read_empty, rfl, rfl, rfl⟩

/-! ### The text of a STEP's inputs -/

/-- A binary digit. -/
def bitChar (b : Bool) : Char := if b then '1' else '0'

theorem parseBit_bitChar (b : Bool) : parseBit [bitChar b] = some b := by
  cases b <;> rfl

/-- Binary digits are read most significant first, each doubling the value before it (D14). -/
theorem binaryValue_map_bitChar (bits : List Bool) (value : Nat) :
    binaryValue (bits.map bitChar) value = some (bits.foldl (fun v b => 2 * v + b.toNat) value) := by
  induction bits generalizing value with
  | nil => rfl
  | cons b bits ih => cases b <;> exact ih _

/-- The text-level STEP with well-formed inputs is the typed STEP. -/
theorem runCommand_stepText_of_parsed {fgi fgo inpr : List Char} {x : Config.HostInputs}
    (h : parseInputs fgi fgo inpr = some x) (s : State) :
    runCommand (.stepText fgi fgo inpr) s = runCommand (.step x) s := by
  change stepTextCommand fgi fgo inpr s = stepCommand x s
  rw [stepTextCommand, h]

theorem parseBit_form {text : List Char} {b : Bool} (h : parseBit text = some b) : text = ['0'] ∨ text = ['1'] := by
  unfold parseBit at h
  split at h
  · exact .inl rfl
  · exact .inr rfl
  · cases h

theorem binaryValue_form {text : List Char} {value n : Nat} (h : binaryValue text value = some n) :
    ∀ c ∈ text, c = '0' ∨ c = '1' := by
  induction text generalizing value with
  | nil => nofun
  | cons c rest ih =>
    rw [binaryValue] at h
    split at h
    · next hc => exact List.forall_mem_cons.mpr ⟨.inl (beq_iff_eq.mp hc), ih h⟩
    · split at h
      · next hc => exact List.forall_mem_cons.mpr ⟨.inr (beq_iff_eq.mp hc), ih h⟩
      · cases h

theorem parseByte_form {text : List Char} {b : Byte} (h : parseByte text = some b) :
    text.length = 8 ∧ ∀ c ∈ text, c = '0' ∨ c = '1' := by
  rw [parseByte] at h
  split at h
  · next hlength =>
    split at h
    · next hvalue => exact ⟨hlength, binaryValue_form hvalue⟩
    · cases h
  · cases h

/-- Inputs the interface accepts are one, one and eight binary digits (R204). -/
theorem parseInputs_form {fgi fgo inpr : List Char} {x : Config.HostInputs}
    (h : parseInputs fgi fgo inpr = some x) :
    (fgi = ['0'] ∨ fgi = ['1']) ∧ (fgo = ['0'] ∨ fgo = ['1']) ∧ inpr.length = 8 ∧ ∀ c ∈ inpr, c = '0' ∨ c = '1' := by
  rw [parseInputs] at h
  split at h
  · next hfgi hfgo hinpr => exact ⟨parseBit_form hfgi, parseBit_form hfgo, parseByte_form hinpr⟩
  · cases h

/-- Settles O44: binary digits are parsed to the typed inputs, and nothing else is parsed. -/
theorem textStepValidated : Obligations.TextStepValidated := by
  refine ⟨fun fgi fgo b7 b6 b5 b4 b3 b2 b1 b0 s => ?valid, fun fgi fgo inpr s haccepts hmalformed => ?malformed⟩
  case valid =>
    refine runCommand_stepText_of_parsed ?_ s
    have hbyte : parseByte ([b7, b6, b5, b4, b3, b2, b1, b0].map bitChar) = some (BitVec.ofNat 8
        (128 * b7.toNat + 64 * b6.toNat + 32 * b5.toNat + 16 * b4.toNat + 8 * b3.toNat + 4 * b2.toNat +
          2 * b1.toNat + b0.toNat)) := by
      rw [parseByte, if_pos (by simp), binaryValue_map_bitChar]
      simp only [List.foldl]
      congr 2
      omega
    change parseInputs [bitChar fgi] [bitChar fgo] ([b7, b6, b5, b4, b3, b2, b1, b0].map bitChar) = _
    rw [parseInputs, parseBit_bitChar, parseBit_bitChar, hbyte]
  case malformed =>
    have hnone : parseInputs fgi fgo inpr = none := by
      cases hparse : parseInputs fgi fgo inpr with
      | none => rfl
      | some x =>
        obtain ⟨hfgi, hfgo, hlength, hdigits⟩ := parseInputs_form hparse
        obtain hbad | hbad | hbad | ⟨c, hc, hzero, hone⟩ := hmalformed
        · exact absurd hfgi hbad
        · exact absurd hfgo hbad
        · exact absurd hlength hbad
        · exact ((hdigits c hc).elim hzero hone).elim
    rw [runCommand, stepTextCommand, hnone, haccepts]
    rfl

end Sys2Proof.Machine
end

section
/-! SUPPORT. The invariant of R45 and the inverse law: what an accepted STEP does to DR, TR, the diff and the history, and
the proofs of O55, O56 and O41 (spec/10_state.md section 10, spec/50_host_and_history.md section 4). -/

namespace Sys2Proof.Machine

/-! ### An accepted STEP -/

/-- No STEP writes DR or TR, and none leaves a diff behind (R24, R26). -/
theorem performStep_dr_tr_memw {x : Config.HostInputs} {s t : State} (h : performStep x s = .next t) :
    t.regs.dr = s.regs.dr ∧ t.regs.tr = s.regs.tr ∧ t.memw = none := by
  obtain ⟨-, hp⟩ | ⟨-, u, hu, -, hp⟩ := performStep_cases x s
  · cases hp.symm.trans h
    exact ⟨rfl, rfl, rfl⟩
  · cases hp.symm.trans h
    obtain ⟨-, hdr, htr, -⟩ := exec_untouched hu
    exact ⟨hdr, htr, rfl⟩

/-- The diff of a step holds the value its word has before the step (R208). -/
theorem State.stepDiff_prior {s : State} {d : MemDiff} (h : s.stepDiff = some d) :
    d.prior = s.mem.read d.address := by
  cases hr : s.regs.r with
  | true =>
    cases (State.stepDiff_interrupt hr).symm.trans h
    rfl
  | false =>
    rw [State.stepDiff_normal hr] at h
    obtain ⟨a, -, rfl⟩ := Option.map_eq_some_iff.mp h
    rfl

/-- Undoing the diff of an accepted STEP gives the memory before it. -/
theorem performStep_undo {x : Config.HostInputs} {s t : State} (wf : s.mem.wf = true)
    (h : performStep x s = .next t) : t.mem.undo s.stepDiff = s.mem := by
  obtain ⟨hdiff, hmem⟩ | ⟨d, v, hdiff, hmem⟩ := performStep_memory h
  · rw [hdiff, hmem]
    rfl
  · rw [hdiff, hmem, Memory.undo, State.stepDiff_prior hdiff]
    exact Memory.write_write_read wf d.address v

/-! ### The invariant of R45 -/

/-- The invariant does not speak of the Host's fields. -/
theorem State.Inv.of_issued {s : State} (inv : s.Inv) : s.issued.Inv := by
  unfold State.issued
  split <;> exact inv

/-- A STEP keeps the invariant: DR, TR and the oldest frame stay, and the frame it may push holds its registers. -/
theorem State.Inv.of_performStep {x : Config.HostInputs} {s t : State} (inv : s.Inv) (hloaded : s.loaded = true)
    (h : performStep x s = .next t) : t.Inv := by
  obtain ⟨wf, -, hregs⟩ := inv
  obtain ⟨hdr, htr, hlast, hframes⟩ := hregs hloaded
  obtain ⟨hdr', htr', hmemw⟩ := performStep_dr_tr_memw h
  refine ⟨performStep_mem_wf wf h, hmemw, fun _ => ⟨hdr'.trans hdr, htr'.trans htr, ?_⟩⟩
  rw [performStep_hist h]
  split
  · refine ⟨?_, List.forall_mem_cons.mpr ⟨⟨hdr'.trans hdr, htr'.trans htr⟩, hframes⟩⟩
    rw [List.getLast?_cons, hlast]
    rfl
  · exact ⟨hlast, hframes⟩

/-- STEP_BACK keeps the invariant: its registers are a frame's, and the oldest frame is not popped. -/
theorem State.Inv.of_stepBack {s : State} (inv : s.Inv) : s.stepBack.Inv := by
  obtain ⟨f, g, older, hloaded, hhist, hback⟩ | ⟨-, hback⟩ := s.stepBack_cases
  · obtain ⟨wf, hmemw, hregs⟩ := inv
    obtain ⟨-, -, hlast, hframes⟩ := hregs hloaded
    rw [hhist] at hlast hframes
    obtain ⟨-, hframes⟩ := List.forall_mem_cons.mp hframes
    obtain ⟨⟨hdr, htr⟩, -⟩ := List.forall_mem_cons.mp hframes
    rw [List.getLast?_cons_cons] at hlast
    rw [hback]
    exact ⟨Memory.undo_wf wf f.memoryWrite, hmemw, fun _ => ⟨hdr, htr, hlast, hframes⟩⟩
  · rw [hback]
    exact inv

/-- A loaded state has the invariant. -/
theorem State.Inv.of_load (s : State) (image : Memory) : (s.load image).Inv :=
  ⟨image.ofImage_wf, rfl, fun _ => ⟨rfl, rfl, rfl, by simp [resetFrame, Registers.zero]⟩⟩

/-- Every command keeps the invariant. -/
theorem CommandEffect.inv {c : Command} {s t : State} (h : CommandEffect c s t) (inv : s.Inv) : t.Inv := by
  cases h with
  | performed x haccepts hperform =>
    obtain ⟨hloaded, -⟩ := Bool.and_eq_true_iff.mp haccepts
    exact inv.of_performStep hloaded hperform
  | loaded image reply => exact State.Inv.of_load s image
  | loadFailed image reply =>
    obtain ⟨-, hmemw, hregs⟩ := inv
    exact ⟨image.ofImage_wf, hmemw, hregs⟩
  | backed => exact inv.of_stepBack
  | answered reply => exact inv

/-- Settles O56: the next command is taken from the Host, and its effect keeps the invariant. -/
theorem stepKeepsInvariant : Obligations.StepKeepsInvariant :=
  fun _ _ inv hstep => (CommandEffect.of_run hstep).inv inv.of_issued

/-- Settles O55: `State.reset` is as a load of the image that lists nothing leaves it. -/
theorem resetHasInvariant : Obligations.ResetHasInvariant :=
  State.Inv.of_load State.reset Memory.empty

/-! ### The inverse law -/

/-- Commands in two batches are run one batch after the other. -/
theorem runAll_append {first second : List Command} {s t : State} (h : runAll first s = .next t) :
    runAll (first ++ second) s = runAll second t := by
  induction first generalizing s with
  | nil =>
    cases h
    rfl
  | cons c rest ih =>
    obtain ⟨u, hu, hrest⟩ := runAll_cons h
    rw [List.cons_append, runAll, hu]
    exact ih hrest

/-- A STEP that pushed a frame was accepted; the frame it pushed holds its registers and its diff. -/
theorem runCommand_step_pushed {x : Config.HostInputs} {s t : State} (h : runCommand (.step x) s = .next t)
    (hpush : t.hist.length = s.hist.length + 1) :
    s.loaded = true ∧ performStep x s = .next t ∧ t.hist = ⟨t.regs, s.stepDiff⟩ :: s.hist := by
  obtain ⟨haccepts, hperform⟩ | ⟨-, rfl⟩ := runCommand_step_cases h
  · obtain ⟨hloaded, -⟩ := Bool.and_eq_true_iff.mp haccepts
    have hhist := performStep_hist hperform
    split at hhist
    · exact ⟨hloaded, hperform, hhist⟩
    · rw [hhist] at hpush
      omega
  · rw [State.answer_hist] at hpush
    omega

/-- STEP_BACK from a state that differs from the one a pushing STEP left in its reply alone undoes that STEP. -/
theorem stepBack_undoes_step {x : Config.HostInputs} {f : Frame} {older : List Frame} {s t v : State}
    (wf : s.mem.wf = true) (hhist : s.hist = f :: older) (hregs : s.regs = f.registers)
    (hperform : performStep x s = .next t) (hpushed : t.hist = ⟨t.regs, s.stepDiff⟩ :: s.hist)
    (hloaded : v.loaded = true) (hmem' : v.mem = t.mem) (hhist' : v.hist = t.hist) :
    v.stepBack.mem = s.mem ∧ v.stepBack.regs = s.regs ∧ v.stepBack.hist = s.hist ∧ v.stepBack.loaded = true := by
  rw [State.stepBack_of_frames hloaded ((hhist'.trans hpushed).trans (congrArg _ hhist)), hmem', hregs, hhist]
  exact ⟨performStep_undo wf hperform, rfl, rfl, hloaded⟩

/-- The inverse law, with LOADED: it holds once a STEP was accepted, and STEP_BACK needs it. -/
theorem stepBacks_invert_steps (xs : List Config.HostInputs) {f : Frame} {older : List Frame} {s t : State}
    (wf : s.mem.wf = true) (hhist : s.hist = f :: older) (hregs : s.regs = f.registers) (h : EveryStepPushes xs s t) :
    ∃ u, runAll (List.replicate xs.length Command.stepBack) t = .next u ∧
      u.mem = s.mem ∧ u.regs = s.regs ∧ u.hist = s.hist ∧ u.loaded = s.loaded := by
  induction xs generalizing f older s with
  | nil =>
    cases h
    exact ⟨t, rfl, rfl, rfl, rfl, rfl⟩
  | cons x xs ih =>
    obtain ⟨w, hstep, hpush, hrest⟩ := h
    obtain ⟨hloaded, hperform, hpushed⟩ := runCommand_step_pushed hstep hpush
    obtain ⟨v, hback, hmem', -, hhist', hloaded'⟩ := ih (performStep_mem_wf wf hperform) hpushed rfl hrest
    obtain ⟨hkept, -, -⟩ := performStep_outside hperform
    obtain ⟨hmem, hregs', hhist'', hloaded''⟩ := stepBack_undoes_step wf hhist hregs hperform hpushed
      (hloaded'.trans (hkept.trans hloaded)) hmem' hhist'
    refine ⟨v.stepBack, ?_, hmem, hregs', hhist'', hloaded''.trans hloaded.symm⟩
    rw [List.length_cons, List.replicate_succ', runAll_append hback]
    rfl

/-- Settles O41. -/
theorem stepBacksInvertSteps : Obligations.StepBacksInvertSteps := by
  intro xs f older s t wf hhist hregs hpushes
  obtain ⟨u, hrun, hmem, hregs', hhist', -⟩ := stepBacks_invert_steps xs wf hhist hregs hpushes
  exact ⟨u, hrun, hmem, hregs', hhist'⟩

end Sys2Proof.Machine
end

section
/-! SUPPORT. The invariant of the halt and the history, and the proofs of O59, O60, O57 and O58. Its one subtle step is
the interrupt taken at address 1 from a halt, which changes the word at address 0 under the history without pushing a
frame: the frames it reaches are parked at address 1 or lie below a frame that recorded a write of address 0
(spec/50_host_and_history.md R211, R213). -/

namespace Sys2Proof.Machine

/-! ### Two writes -/

/-- Of two writes to one word the second remains. -/
theorem Memory.write_write_same {m : Memory} (wf : m.wf = true) (a : Addr) (v w : Word) :
    (m.write a v).write a w = m.write a w := by
  refine Memory.ext_of_read (Memory.write_wf (Memory.write_wf wf a v) a w) (Memory.write_wf wf a w) fun b => ?_
  rw [Memory.read_write (Memory.write_wf wf a v), Memory.read_write wf, Memory.read_write wf]
  split <;> rfl

/-- Writes to two words commute. -/
theorem Memory.write_comm {m : Memory} (wf : m.wf = true) {a b : Addr} (hne : a ≠ b) (v w : Word) :
    (m.write a v).write b w = (m.write b w).write a v := by
  refine Memory.ext_of_read (Memory.write_wf (Memory.write_wf wf a v) b w)
    (Memory.write_wf (Memory.write_wf wf b w) a v) fun c => ?_
  rw [Memory.read_write (Memory.write_wf wf a v), Memory.read_write wf, Memory.read_write (Memory.write_wf wf b w),
    Memory.read_write wf]
  by_cases ha : c = a
  · rw [if_pos ha, if_pos ha, if_neg (ha ▸ hne)]
  · rw [if_neg ha, if_neg ha]

/-! ### The registers a frame-less step keeps -/

/-- The registers with the six that frame-less steps may change taken out (R213). -/
def Registers.kept (g : Registers) : Registers :=
  { g with fgi := false, fgo := false, inpr := 0, r := false, ien := false, h := false }

/-- The first clause of `State.AgreesWith` says that the kept registers are the same. -/
theorem Registers.kept_eq_iff (g f : Registers) :
    g.kept = f.kept ↔
      g = { f with fgi := g.fgi, fgo := g.fgo, inpr := g.inpr, r := g.r, ien := g.ien, h := g.h } :=
  ⟨fun h => congrArg (fun k : Registers =>
      { k with fgi := g.fgi, fgo := g.fgo, inpr := g.inpr, r := g.r, ien := g.ien, h := g.h }) h,
    fun h => (congrArg Registers.kept h :)⟩

/-- A state agrees with a frame of its registers. -/
theorem State.AgreesWith.of_eq {s : State} {f : Frame} (h : s.regs = f.registers) : s.AgreesWith f :=
  ⟨(Registers.kept_eq_iff _ _).mp (congrArg Registers.kept h), fun _ => h, .inl ⟨by rw [h], by rw [h]⟩⟩

/-- PC is one of the kept registers. -/
theorem State.AgreesWith.pc {s : State} {f : Frame} (h : s.AgreesWith f) : s.regs.pc = f.registers.pc :=
  (congrArg Registers.pc h.1 :)

/-- While the machine is halted its newest frame is halted too. -/
theorem State.AgreesWith.frame_halted {s : State} {f : Frame} (h : s.AgreesWith f) (hh : s.regs.h = true) :
    f.registers.h = true := by
  obtain ⟨-, -, ⟨-, hsame⟩ | ⟨-, hclear, -⟩⟩ := h
  · exact hsame.symm.trans hh
  · cases hh.symm.trans hclear

/-- A halted frame over a machine that is not halted is parked at address 1 (R211). -/
theorem State.AgreesWith.parked_at_entry {s : State} {f : Frame} (h : s.AgreesWith f) (hs : s.regs.h = false)
    (hf : f.registers.h = true) : f.registers.pc = 1 := by
  have hpc := h.pc
  obtain ⟨-, -, ⟨-, hsame⟩ | ⟨hentry, -⟩⟩ := h
  · rw [hs, hf] at hsame
    cases hsame
  · exact hpc.symm.trans hentry

/-! ### Frames over a changed word 0 -/

/-- Registers that are not halted fit any memory. -/
theorem HaltFits.of_not_halted {m : Memory} {g : Registers} (h : g.h = false) : HaltFits m g :=
  fun hh => by cases h.symm.trans hh

/-- A halt parked at address 1 does not see the word at address 0. -/
theorem HaltFits.write_zero {m : Memory} {g : Registers} (wf : m.wf = true) (fits : HaltFits m g)
    (hpc : g.h = true → g.pc = 1) (v : Word) : HaltFits (m.write 0 v) g := by
  intro hh
  obtain ⟨hword, hrest⟩ := fits hh
  refine ⟨?_, hrest⟩
  rw [Memory.read_write_other wf (by rw [hpc hh]; decide)]
  exact hword

/-- One frame that is not halted fits any memory. -/
theorem FramesFit.singleton {m : Memory} {f : Frame} (h : f.registers.h = false) : FramesFit m [f] :=
  ⟨.of_not_halted h, fun _ hnone => (nomatch hnone), trivial⟩

/-- A new word at address 0 is not seen by any frame, if the newest is not halted elsewhere than at address 1: going
down, either every frame recorded no write of address 0 and the same holds of the next, or one did, and undoing it
overwrites the new word. -/
theorem FramesFit.write_zero {m : Memory} {hist : List Frame} (wf : m.wf = true) (fits : FramesFit m hist)
    (hpc : ∀ f, hist.head? = some f → f.registers.h = true → f.registers.pc = 1) (v : Word) :
    FramesFit (m.write 0 v) hist := by
  induction hist generalizing m with
  | nil => trivial
  | cons f older ih =>
    obtain ⟨hfits, hbelow, holder⟩ := fits
    refine ⟨hfits.write_zero wf (hpc f rfl) v, hbelow, ?_⟩
    cases hwrite : f.memoryWrite with
    | none =>
      rw [hwrite] at holder hbelow
      exact ih wf holder fun g hg hh => (hbelow g hg hh).resolve_right nofun
    | some d =>
      rw [hwrite] at holder hbelow
      obtain ⟨a, p⟩ := d
      by_cases ha : a = 0
      · subst ha
        rwa [Memory.undo, Memory.write_write_same wf]
      · rw [Memory.undo, Memory.write_comm wf (Ne.symm ha)]
        refine ih (Memory.write_wf wf a p) holder fun g hg hh => (hbelow g hg hh).resolve_right ?_
        rintro ⟨p', hp⟩
        cases hp
        exact ha rfl

/-! ### The halt over an accepted STEP -/

/-- The one word that decodes to HLT (R85). -/
theorem eq_of_decode_hlt {w : Word} (h : decode w = .hlt) : w = 0x7001 := by
  obtain ⟨-, hencode⟩ := encodeInvertsDecode w
  rw [h] at hencode
  exact hencode.symm

/-- A normal cycle that ends halted ran a HLT. -/
theorem performStep_ran_hlt {x : Config.HostInputs} {s t : State} (fits : HaltFits s.mem s.regs)
    (hr : s.regs.r = false) (h : performStep x s = .next t) (hhalted : t.regs.h = true) :
    s.mem.read s.regs.pc = 0x7001 := by
  obtain ⟨u, hu, -, hregs⟩ := performStep_normal_inv hr h
  by_cases hhlt : decode (s.mem.read s.regs.pc) = .hlt
  · exact eq_of_decode_hlt hhlt
  · have hbefore := exec_h hu hhlt
    rw [hregs] at hhalted
    exact (fits (hbefore.symm.trans hhalted)).1

/-- An interrupt-service cycle: the word at address 0, the latch, PC, IEN, R and H (R236). -/
theorem performStep_interrupt_inv {x : Config.HostInputs} {s t : State} (hr : s.regs.r = true)
    (h : performStep x s = .next t) :
    t.mem = s.mem.write 0 (storedPc s.regs.pc) ∧
    t.regs = { s.regs with
      fgi := x.fgi, fgo := x.fgo, inpr := x.inpr, pc := 1, ien := false, r := false, h := false } := by
  cases (performStep_interrupt hr).symm.trans h
  exact ⟨rfl, rfl⟩

/-- After an accepted STEP, H = 1 means parked on a HLT if it did before: the interrupt leaves the halt, and a normal
cycle that ends halted parked on the HLT it ran. -/
theorem HaltFits.of_performStep {x : Config.HostInputs} {s t : State} (fits : HaltFits s.mem s.regs)
    (h : performStep x s = .next t) : HaltFits t.mem t.regs := by
  intro hhalted
  cases hr : s.regs.r with
  | true =>
    obtain ⟨-, hregs⟩ := performStep_interrupt_inv hr h
    rw [hregs] at hhalted
    cases hhalted
  | false =>
    have hword := performStep_ran_hlt fits hr h hhalted
    obtain ⟨hmem, hregs, -⟩ := performStep_hlt hr hword h
    rw [hmem, hregs]
    exact ⟨hword, rfl, rfl, rfl, rfl⟩

/-- A STEP of a parked machine with no interrupt pending changes the latched inputs and R alone. -/
theorem performStep_parked {x : Config.HostInputs} {s t : State} (fits : HaltFits s.mem s.regs)
    (hr : s.regs.r = false) (hh : s.regs.h = true) (h : performStep x s = .next t) :
    t.mem = s.mem ∧ t.regs = { s.regs with
      fgi := x.fgi, fgo := x.fgo, inpr := x.inpr, r := s.regs.ien && (x.fgi || x.fgo) } := by
  obtain ⟨hword, hir, hmar, har, hi⟩ := fits hh
  obtain ⟨hmem, hregs, -⟩ := performStep_hlt hr hword h
  refine ⟨hmem, hregs.trans ?_⟩
  simp only [hir, hmar, har, hi, hh]

/-! ### The invariant -/

/-- A frame pushed over a halted one that is not parked at address 1 records a write of address 0: such a machine is
halted, so only the interrupt moves it. -/
theorem pushed_over_halt {x : Config.HostInputs} {s t : State} {f : Frame} (fits : HaltFits s.mem s.regs)
    (agrees : s.AgreesWith f) (h : performStep x s = .next t) (hpush : t.regs.pc ≠ s.regs.pc ∨ s.regs.h = false)
    (hf : f.registers.h = true) : f.registers.pc = 1 ∨ ∃ v, s.stepDiff = some ⟨0, v⟩ := by
  cases hr : s.regs.r with
  | true => exact .inr ⟨_, State.stepDiff_interrupt hr⟩
  | false =>
    cases hh : s.regs.h with
    | false => exact .inl (agrees.parked_at_entry hh hf)
    | true =>
      obtain ⟨-, hregs⟩ := performStep_parked fits hr hh h
      rw [hregs, hh] at hpush
      simp at hpush

/-- A STEP that pushes a frame keeps the invariant: undoing the frame's diff gives the memory the older frames fit. -/
theorem State.HistoryInv.of_pushed {x : Config.HostInputs} {s t : State} (inv : s.HistoryInv)
    (h : performStep x s = .next t) (hpush : t.regs.pc ≠ s.regs.pc ∨ s.regs.h = false) : t.HistoryInv := by
  obtain ⟨wf, hhalt, hframes, f, older, hhist, agrees⟩ := inv
  have hhist' := performStep_hist h
  rw [if_pos hpush] at hhist'
  have hhalt' := hhalt.of_performStep h
  refine ⟨performStep_mem_wf wf h, hhalt', ?_, ⟨t.regs, s.stepDiff⟩, s.hist, hhist', .of_eq rfl⟩
  rw [hhist']
  refine ⟨hhalt', fun g hg hh => ?_, ?_⟩
  · rw [hhist] at hg
    cases hg
    exact pushed_over_halt hhalt agrees h hpush hh
  · rwa [performStep_undo wf h]

/-- A STEP that pushes no frame keeps the invariant: it is an interrupt taken at address 1 from the halt, or a HLT run
again while parked on it. -/
theorem State.HistoryInv.of_not_pushed {x : Config.HostInputs} {s t : State} (inv : s.HistoryInv)
    (h : performStep x s = .next t) (hpc : t.regs.pc = s.regs.pc) (hh : s.regs.h = true) : t.HistoryInv := by
  obtain ⟨wf, hhalt, hframes, f, older, hhist, agrees⟩ := inv
  have hhist' := performStep_hist h
  rw [if_neg (by simp [hpc, hh])] at hhist'
  have hf := agrees.frame_halted hh
  have hnot : f.registers.h = false → t.regs = f.registers := fun hclear => by cases hf.symm.trans hclear
  have hkept := (Registers.kept_eq_iff _ _).mpr agrees.1
  cases hr : s.regs.r with
  | true =>
    obtain ⟨hmem, hregs⟩ := performStep_interrupt_inv hr h
    have hentry : s.regs.pc = 1 := by rw [← hpc, hregs]
    have hframe : f.registers.pc = 1 := agrees.pc.symm.trans hentry
    refine ⟨performStep_mem_wf wf h, hhalt.of_performStep h, ?_, f, older, hhist'.trans hhist, ?_, hnot, .inr ?_⟩
    · rw [hmem, hhist']
      refine hframes.write_zero wf (fun g hg _ => ?_) _
      rw [hhist] at hg
      cases hg
      exact hframe
    · refine (Registers.kept_eq_iff _ _).mp (.trans ?_ hkept)
      rw [hregs, ← hentry]
      rfl
    · rw [hregs]
      exact ⟨rfl, rfl, rfl, hf⟩
  | false =>
    obtain ⟨hmem, hregs⟩ := performStep_parked hhalt hr hh h
    have hframes' : FramesFit t.mem t.hist := by rwa [hmem, hhist']
    refine ⟨hmem ▸ wf, hhalt.of_performStep h, hframes', f, older, hhist'.trans hhist, ?_, hnot, .inl ?_⟩
    · refine (Registers.kept_eq_iff _ _).mp (.trans ?_ hkept)
      rw [hregs]
      rfl
    · obtain ⟨-, -, hflags | ⟨-, hclear, -⟩⟩ := agrees
      · rw [hregs]
        exact hflags
      · cases hh.symm.trans hclear

/-- An accepted STEP keeps the invariant. -/
theorem State.HistoryInv.of_performStep {x : Config.HostInputs} {s t : State} (inv : s.HistoryInv)
    (h : performStep x s = .next t) : t.HistoryInv := by
  by_cases hpush : t.regs.pc ≠ s.regs.pc ∨ s.regs.h = false
  · exact inv.of_pushed h hpush
  · rw [not_or, not_not, Bool.not_eq_false] at hpush
    exact inv.of_not_pushed h hpush.1 hpush.2

/-- STEP_BACK keeps the invariant: the frame it uncovers fits the memory undone down to it. -/
theorem State.HistoryInv.of_stepBack {s : State} (inv : s.HistoryInv) : s.stepBack.HistoryInv := by
  obtain ⟨f, g, older, -, hhist, hback⟩ | ⟨-, hback⟩ := s.stepBack_cases
  · obtain ⟨wf, -, hframes, -⟩ := inv
    rw [hhist] at hframes
    obtain ⟨-, -, hbelow⟩ := hframes
    rw [hback]
    exact ⟨Memory.undo_wf wf f.memoryWrite, hbelow.1, hbelow, g, older, rfl, .of_eq rfl⟩
  · rw [hback]
    exact inv

/-- A loaded state has the invariant: its one frame is the reset frame. -/
theorem State.HistoryInv.of_load (s : State) (image : Memory) : (s.load image).HistoryInv :=
  ⟨image.ofImage_wf, .of_not_halted rfl, .singleton rfl, resetFrame, [], rfl, .of_eq rfl⟩

/-- Every command but a failed load keeps the invariant. -/
theorem CommandEffect.historyInv {c : Command} {s t : State} (h : CommandEffect c s t) (hloads : ¬c.FailsToLoad)
    (inv : s.HistoryInv) : t.HistoryInv := by
  cases h with
  | performed x _ hperform => exact inv.of_performStep hperform
  | loaded image reply => exact State.HistoryInv.of_load s image
  | loadFailed image reply hfails => exact absurd hfails hloads
  | backed => exact inv.of_stepBack
  | answered reply => exact inv

/-- The invariant does not speak of the Host's fields. -/
theorem State.HistoryInv.of_issued {s : State} (inv : s.HistoryInv) : s.issued.HistoryInv := by
  unfold State.issued
  split <;> exact inv

/-- The next command is no failed load, in the model's two clauses. -/
theorem State.NoFailedLoadNext.not_failsToLoad {s : State} (h : s.NoFailedLoadNext) :
    ¬s.nextCommand.FailsToLoad := by
  obtain ⟨hload, hassemble⟩ := h
  rintro (⟨image, failure, hnext⟩ | ⟨source, image, failure, hnext, hfailed⟩)
  · exact hload image failure hnext
  · exact hassemble source image failure hnext hfailed

/-- Settles O59: the next command is taken from the Host, and its effect keeps the invariant. -/
theorem stepKeepsHistoryInvariant : Obligations.StepKeepsHistoryInvariant :=
  fun _ _ inv hnext hstep => (CommandEffect.of_run hstep).historyInv hnext.not_failsToLoad inv.of_issued

/-- Settles O60: `State.reset` is as a load of the image that lists nothing leaves it. -/
theorem loadedStateHasHistoryInvariant : Obligations.LoadedStateHasHistoryInvariant := by
  refine ⟨fun image s t h => ?_, State.HistoryInv.of_load State.reset Memory.empty⟩
  cases h
  exact State.HistoryInv.of_load s image

/-- Every state STEP and STEP_BACK reach from a load has the invariant. -/
theorem Reachable.historyInv {s : State} (h : Reachable s) : s.HistoryInv := by
  induction h with
  | load s image => exact State.HistoryInv.of_load s image
  | step x _ hstep ih => exact (CommandEffect.of_run hstep).historyInv (by simp [Command.FailsToLoad]) ih
  | stepBack _ hback ih => exact (CommandEffect.of_run hback).historyInv (by simp [Command.FailsToLoad]) ih

/-- Settles O57: the halt of a reachable state fits its memory. -/
theorem haltedMeansParked : Obligations.HaltedMeansParked := by
  intro s hs hh
  obtain ⟨-, hhalt, -⟩ := hs.historyInv
  exact (hhalt hh).1

/-- Settles O58: the newest frame of a reachable state agrees with its registers. -/
theorem newestFrameAgrees : Obligations.NewestFrameAgrees := by
  intro s hs
  obtain ⟨-, -, -, hnewest⟩ := hs.historyInv
  exact hnewest

end Sys2Proof.Machine
end

section
/-! SUPPORT. The words of an assembler line by its mnemonic, and the proofs of O49 and O50 (spec/31_assembler.md section 4,
spec/30_encoding.md section 5). -/

namespace Sys2Proof.Machine

/-! ### A line is a mnemonic, and an operand behind a space -/

/-- A word of instruction text: characters of R103 but the space. -/
def WordText (word : List Char) : Prop := word.all (fun c => instructionChar c && c != ' ') = true

theorem wordText_iff {word : List Char} : WordText word ↔ ∀ c ∈ word, instructionChar c = true ∧ c ≠ ' ' := by
  simp [WordText]

theorem WordText.no_space {word : List Char} (h : WordText word) : ∀ c ∈ word, c ≠ ' ' :=
  fun c hc => (wordText_iff.mp h c hc).2

theorem WordText.all_instructionChar {word : List Char} (h : WordText word) : word.all instructionChar = true :=
  List.all_eq_true.mpr fun c hc => (wordText_iff.mp h c hc).1

/-- A text without a space, and then nothing or a space and more text, is split there. -/
theorem splitFirstSpace_append {before : List Char} (h : ∀ c ∈ before, c ≠ ' ') (after : Option (List Char)) :
    splitFirstSpace (before ++ after.elim [] (' ' :: ·)) = (before, after) := by
  induction before with
  | nil => cases after <;> rfl
  | cons c rest ih =>
    obtain ⟨hc, hrest⟩ := List.forall_mem_cons.mp h
    rw [List.cons_append, splitFirstSpace, if_neg (by simpa using hc), ih hrest]

/-- A text is put together again from its split. -/
theorem append_splitFirstSpace (text : List Char) :
    text = (splitFirstSpace text).1 ++ (splitFirstSpace text).2.elim [] (' ' :: ·) := by
  induction text with
  | nil => rfl
  | cons c rest ih =>
    rw [splitFirstSpace]
    split
    · next hc => simp [beq_iff_eq.mp hc]
    · next => exact congrArg (c :: ·) ih

/-- The word of a line with an operand, by its mnemonic (R107 to R110). Tied to the model by `encodeLine_operand`. -/
def encodeOperand (table : List SymbolBinding) (word operand : List Char) : Except SyntaxErrorKind Word :=
  if word = ['H', 'E', 'X'] then encodeHex operand
  else if word = ['D', 'E', 'C'] then encodeDecimal operand
  else
    match memoryReferenceOpcode word with
    | some opcode => encodeMemoryReference table opcode operand
    | none => .error .unrecognizedMnemonic

/-- A line with an operand: the characters of R103, then the mnemonic. -/
theorem encodeLine_operand (table : List SymbolBinding) {word : List Char} (hword : WordText word)
    (operand : List Char) :
    encodeLine table (word ++ ' ' :: operand) =
      if operand.all instructionChar then encodeOperand table word operand else .error .illegalCharacter := by
  have hsplit : splitFirstSpace (word ++ ' ' :: operand) = (word, some operand) :=
    splitFirstSpace_append hword.no_space (some operand)
  have hall : (word ++ ' ' :: operand).all instructionChar = operand.all instructionChar := by
    rw [List.all_append, hword.all_instructionChar, List.all_cons]
    rfl
  rw [encodeLine, hall, hsplit, encodeOperand]
  simp only [Bool.not_eq_true', ← Bool.not_eq_true, ite_not, beq_iff_eq]
  cases memoryReferenceOpcode word <;> rfl

/-- A line that is a fixed mnemonic (R113). -/
theorem encodeLine_fixed (table : List SymbolBinding) {word : List Char} {w : Word} (hword : WordText word)
    (hhex : word ≠ ['H', 'E', 'X']) (hdec : word ≠ ['D', 'E', 'C']) (hmemory : memoryReferenceOpcode word = none)
    (hfixed : fixedWord word = some w) : encodeLine table word = .ok w := by
  have hsplit : splitFirstSpace word = (word, none) := by
    simpa using splitFirstSpace_append hword.no_space none
  simp [encodeLine, hword.all_instructionChar, hsplit, hhex, hdec, hmemory, hfixed]

/-! ### The fixed mnemonics -/

/-- The 18 fixed mnemonics, with their words and instructions as O49 writes them out. -/
def fixedMnemonics : List (List Char × Word × Instr) :=
  fixedRows.map fun row => (row.mnemonic, row.word, row.instr)

/-- What the assembler's and the decoder's tables say of each. -/
theorem fixedMnemonics_tables : ∀ row ∈ fixedMnemonics,
    WordText row.1 ∧ row.1 ≠ ['H', 'E', 'X'] ∧ row.1 ≠ ['D', 'E', 'C'] ∧
      memoryReferenceOpcode row.1 = none ∧ fixedWord row.1 = some row.2.1 ∧ decode row.2.1 = row.2.2 := by
  unfold WordText
  decide

/-- Settles O49: a fixed mnemonic is in neither of the tables of the mnemonics that take an operand. -/
theorem fixedMnemonicsAssemble : Obligations.FixedMnemonicsAssemble := by
  intro table operand row hrow
  obtain ⟨hword, hhex, hdec, hmemory, hfixed, hdecode⟩ := fixedMnemonics_tables row hrow
  refine ⟨encodeLine_fixed table hword hhex hdec hmemory hfixed, hdecode, fun w h => ?_⟩
  rw [encodeLine_operand table hword, encodeOperand, if_neg hhex, if_neg hdec, hmemory] at h
  split at h <;> cases h

/-! ### The memory-reference mnemonics -/

/-- The seven memory-reference mnemonics, with their opcodes and instructions as O50 writes them out. -/
def memoryReferenceMnemonics : List (List Char × BitVec 3 × (Bool → Addr → Instr)) :=
  [(['A', 'N', 'D'], 0b000#3, Instr.and), (['A', 'D', 'D'], 0b001#3, Instr.add),
   (['L', 'D', 'A'], 0b010#3, Instr.lda), (['S', 'T', 'A'], 0b011#3, Instr.sta),
   (['B', 'U', 'N'], 0b100#3, Instr.bun), (['B', 'S', 'A'], 0b101#3, Instr.bsa),
   (['I', 'S', 'Z'], 0b110#3, Instr.isz)]

/-- What the assembler's table says of each, and that its instruction has the format's word. -/
theorem memoryReferenceMnemonics_tables : ∀ row ∈ memoryReferenceMnemonics,
    WordText row.1 ∧ row.1 ≠ ['H', 'E', 'X'] ∧ row.1 ≠ ['D', 'E', 'C'] ∧
      memoryReferenceOpcode row.1 = some row.2.1 ∧
      ∀ ind adr, encode (row.2.2 ind adr) = joinFields ind row.2.1 adr ∧ (row.2.2 ind adr).wf = true := by
  simp only [memoryReferenceMnemonics, List.forall_mem_cons]
  refine ⟨?_, ?_, ?_, ?_, ?_, ?_, ?_, nofun⟩ <;>
    exact ⟨rfl, by decide, by decide, rfl, fun _ _ => ⟨rfl, rfl⟩⟩

/-- A line of a memory-reference mnemonic with an operand. -/
theorem encodeLine_memoryReference (table : List SymbolBinding)
    {row : List Char × BitVec 3 × (Bool → Addr → Instr)} (hrow : row ∈ memoryReferenceMnemonics)
    (operand : List Char) :
    encodeLine table (row.1 ++ ' ' :: operand) =
      if operand.all instructionChar then encodeMemoryReference table row.2.1 operand
      else .error .illegalCharacter := by
  obtain ⟨hword, hhex, hdec, hmemory, -⟩ := memoryReferenceMnemonics_tables row hrow
  rw [encodeLine_operand table hword, encodeOperand, if_neg hhex, if_neg hdec, hmemory]

/-- The decoder reads the mnemonic's instruction from its format's word. -/
theorem decode_memoryReference {row : List Char × BitVec 3 × (Bool → Addr → Instr)}
    (hrow : row ∈ memoryReferenceMnemonics) (ind : Bool) (adr : Addr) :
    decode (joinFields ind row.2.1 adr) = row.2.2 ind adr := by
  obtain ⟨-, -, -, -, hencode⟩ := memoryReferenceMnemonics_tables row hrow
  obtain ⟨hword, hwf⟩ := hencode ind adr
  rw [← hword]
  exact decodeInvertsEncode _ hwf

/-- The suffix of an indirect reference. -/
def indirectSuffix (ind : Bool) : List Char := if ind then [' ', 'I'] else []

/-- A symbol of one to three characters, with or without the suffix, is split into the two. -/
theorem splitFirstSpace_reference {name : List Char} (hname : WordText name) (ind : Bool) :
    splitFirstSpace (name ++ indirectSuffix ind) = (name, if ind then some ['I'] else none) := by
  cases ind with
  | true => exact splitFirstSpace_append hname.no_space (some ['I'])
  | false => exact splitFirstSpace_append hname.no_space none

/-- A well-formed reference is the word of its fields, or an undefined-label error (R110, R112). -/
theorem encodeMemoryReference_reference (table : List SymbolBinding) (opcode : BitVec 3) {name : List Char}
    (hname : WordText name) (hlow : 1 ≤ name.length) (hhigh : name.length ≤ 3) (ind : Bool) :
    encodeMemoryReference table opcode (name ++ indirectSuffix ind) =
      (lookupLabel table name).elim (.error .undefinedLabel)
        fun address => .ok (joinFields ind opcode (referenceField address)) := by
  have hne : name ≠ [] := by
    rintro rfl
    cases hlow
  rw [encodeMemoryReference, splitFirstSpace_reference hname]
  cases hlookup : lookupLabel table name <;> cases ind <;> simp [hne, Nat.not_lt.mpr hhigh, hlookup]

/-- A reference that emits a word is a bound symbol of one to three characters, with or without the suffix. -/
theorem encodeMemoryReference_ok {table : List SymbolBinding} {opcode : BitVec 3} {operand : List Char} {w : Word}
    (h : encodeMemoryReference table opcode operand = .ok w) :
    ∃ name ind, operand = name ++ indirectSuffix ind ∧ 1 ≤ name.length ∧ name.length ≤ 3 ∧
      ∃ address, lookupLabel table name = some address := by
  have hjoin := append_splitFirstSpace operand
  rw [encodeMemoryReference] at h
  generalize splitFirstSpace operand = parts at h hjoin
  obtain ⟨name, marker⟩ := parts
  dsimp only at h hjoin
  split at h
  · cases h
  · next hform =>
    simp only [Bool.or_eq_true, Bool.not_eq_true', not_or, List.isEmpty_iff, decide_eq_true_eq, not_lt,
      Bool.not_eq_false, beq_iff_eq] at hform
    obtain ⟨⟨hne, hhigh⟩, hmarker⟩ := hform
    have hlow : 1 ≤ name.length := List.length_pos_iff.mpr hne
    split at h
    · cases h
    · next address hlookup =>
      obtain rfl | rfl := hmarker
      · exact ⟨name, false, hjoin, hlow, hhigh, address, hlookup⟩
      · exact ⟨name, true, hjoin, hlow, hhigh, address, hlookup⟩

/-! ### Symbols -/

/-- The characters of O50's symbols are those of a word of instruction text. -/
theorem wordText_of_symbol {name : List Char}
    (h : ∀ c ∈ name, ('0' ≤ c ∧ c ≤ '9') ∨ ('A' ≤ c ∧ c ≤ 'Z') ∨ c = '-') : WordText name := by
  refine wordText_iff.mpr fun c hc => ?_
  obtain ⟨hlow, hhigh⟩ | ⟨hlow, hhigh⟩ | rfl := h c hc
  · refine ⟨?_, ?_⟩
    · simp only [instructionChar, Char.isDigit, Bool.or_eq_true, Bool.and_eq_true, decide_eq_true_eq]
      exact .inl (.inl (.inl ⟨hlow, hhigh⟩))
    · rintro rfl
      exact absurd hlow (by decide)
  · refine ⟨?_, ?_⟩
    · simp only [instructionChar, Char.isUpper, Bool.or_eq_true, decide_eq_true_eq]
      exact .inl (.inl (.inr ⟨hlow, hhigh⟩))
    · rintro rfl
      exact absurd hlow (by decide)
  · decide

/-- The address found for a name is bound to it. -/
theorem mem_of_lookupLabel {table : List SymbolBinding} {name : List Char} {address : Nat}
    (h : lookupLabel table name = some address) : ⟨name, address⟩ ∈ table := by
  rw [lookupLabel] at h
  split at h
  · next b hb =>
    cases h
    have hname : b.name = name := by simpa using List.find?_some hb
    exact hname ▸ List.mem_of_find?_eq_some hb
  · cases h

/-- No address is found exactly for a name with no binding. -/
theorem lookupLabel_eq_none_iff {table : List SymbolBinding} {name : List Char} :
    lookupLabel table name = none ↔ ∀ b ∈ table, b.name ≠ name := by
  rw [lookupLabel]
  split
  · next b hb =>
    have hname : b.name = name := by simpa using List.find?_some hb
    simpa using ⟨b, List.mem_of_find?_eq_some hb, hname⟩
  · next hb => simpa using hb

/-- The address found for a name bound to one address alone is that address. -/
theorem lookupLabel_eq_some {table : List SymbolBinding} {name : List Char} {address : Nat}
    (hmem : ⟨name, address⟩ ∈ table) (hunique : ∀ b ∈ table, b.name = name → b.address = address) :
    lookupLabel table name = some address := by
  cases hlookup : lookupLabel table name with
  | none => exact absurd rfl (lookupLabel_eq_none_iff.mp hlookup _ hmem)
  | some a => exact congrArg some (hunique _ (mem_of_lookupLabel hlookup) rfl)

/-- An address of the machine is its own field. -/
theorem referenceField_of_lt {address : Nat} (h : address < 4096) : referenceField address = BitVec.ofNat 12 address :=
  if_pos h

/-- A line of a memory-reference mnemonic, a symbol and perhaps the suffix: the word of its fields, or an
undefined-label error. -/
theorem encodeLine_reference (table : List SymbolBinding)
    {row : List Char × BitVec 3 × (Bool → Addr → Instr)} (hrow : row ∈ memoryReferenceMnemonics) {name : List Char}
    (hname : WordText name) (hlow : 1 ≤ name.length) (hhigh : name.length ≤ 3) (ind : Bool) :
    encodeLine table (row.1 ++ ' ' :: name ++ indirectSuffix ind) =
      (lookupLabel table name).elim (.error .undefinedLabel)
        fun address => .ok (joinFields ind row.2.1 (referenceField address)) := by
  have hall : (name ++ indirectSuffix ind).all instructionChar = true := by
    rw [List.all_append, hname.all_instructionChar]
    cases ind <;> decide
  rw [List.append_assoc, List.cons_append, encodeLine_memoryReference table hrow, if_pos hall,
    encodeMemoryReference_reference table _ hname hlow hhigh]

/-- Settles O50: a symbol with or without the suffix is split off the mnemonic and looked up, and only such an operand
emits a word. -/
theorem memoryReferenceAssembles : Obligations.MemoryReferenceAssembles := by
  intro table row hrow
  refine ⟨fun name ind hlow hhigh hchars => ?reference, fun operand w h => ?form⟩
  case reference =>
    have hline := encodeLine_reference table hrow (wordText_of_symbol hchars) hlow hhigh ind
    refine ⟨fun address hmem hunique haddress => ?bound, fun hunbound => ?unbound⟩
    case bound =>
      rw [lookupLabel_eq_some hmem hunique, Option.elim_some, referenceField_of_lt haddress] at hline
      exact ⟨_, hline, indirectBit_joinFields .., opcodeField_joinFields .., addressField_joinFields ..,
        decode_memoryReference hrow ind _⟩
    case unbound =>
      rw [lookupLabel_eq_none_iff.mpr hunbound] at hline
      exact hline
  case form =>
    rw [encodeLine_memoryReference table hrow] at h
    split at h
    · obtain ⟨name, ind, hoperand, hlow, hhigh, address, hlookup⟩ := encodeMemoryReference_ok h
      exact ⟨name, ind, hoperand, hlow, hhigh, _, mem_of_lookupLabel hlookup, rfl⟩
    · cases h

end Sys2Proof.Machine
end

section
/-! SUPPORT. The numerals of HEX and DEC against the library's digits, and the proof of O51 (spec/31_assembler.md R108,
R109). -/

namespace Sys2Proof.Machine

/-! ### Hexadecimal numerals -/

/-- The upper-case hexadecimal digits, as O51 writes them out. -/
def hexChar (d : Nat) : Char :=
  ['0', '1', '2', '3', '4', '5', '6', '7', '8', '9', 'A', 'B', 'C', 'D', 'E', 'F'].getD d ' '

theorem toNat_hexChar : ∀ d < 16, (hexChar d).toNat = if d < 10 then 48 + d else 55 + d := by decide

theorem instructionChar_hexChar : ∀ d < 16, instructionChar (hexChar d) = true := by decide

theorem hexDigitValue_hexChar : ∀ d < 16, hexDigitValue (hexChar d) = some d := by decide

/-- The model's digit values are those of the sixteen digits. -/
theorem hexDigitValue_iff {c : Char} {d : Nat} : hexDigitValue c = some d ↔ d < 16 ∧ c = hexChar d := by
  refine ⟨fun h => ?_, fun ⟨hd, hc⟩ => hc ▸ hexDigitValue_hexChar d hd⟩
  have hzero : '0'.toNat = 48 := rfl
  have hnine : '9'.toNat = 57 := rfl
  have hA : 'A'.toNat = 65 := rfl
  have hF : 'F'.toNat = 70 := rfl
  rw [hexDigitValue] at h
  split at h
  · next hdigit =>
    cases h
    obtain ⟨hlow, hhigh⟩ := Char.isDigit_iff_toNat.mp hdigit
    have hlt : c.toNat - '0'.toNat < 10 := by omega
    refine ⟨by omega, Char.toNat_inj.mp ?_⟩
    rw [toNat_hexChar _ (by omega), if_pos hlt]
    omega
  · split at h
    · next hletter =>
      cases h
      simp only [Bool.and_eq_true, decide_eq_true_eq] at hletter
      have hnot : ¬c.toNat - 'A'.toNat + 10 < 10 := by omega
      refine ⟨by omega, Char.toNat_inj.mp ?_⟩
      rw [toNat_hexChar _ (by omega), if_neg hnot]
      omega
    · cases h

/-- The value of hexadecimal digits read after a value: the library's value of the digits, behind the value shifted. -/
theorem digitsValue_hex_iff {text : List Char} {value n : Nat} :
    digitsValue hexDigitValue 16 text value = some n ↔
      ∃ digits : List Nat, (∀ d ∈ digits, d < 16) ∧ text = digits.map hexChar ∧
        n = 16 ^ digits.length * value + Nat.ofDigits 16 digits.reverse := by
  induction text generalizing value with
  | nil =>
    constructor
    · intro h
      cases h
      exact ⟨[], nofun, rfl, by simp⟩
    · rintro ⟨digits, -, htext, rfl⟩
      cases List.map_eq_nil_iff.mp htext.symm
      simp [digitsValue]
  | cons c rest ih =>
    have hvalue (d : Nat) (digits : List Nat) :
        16 ^ digits.length * (value * 16 + d) + Nat.ofDigits 16 digits.reverse =
          16 ^ (d :: digits).length * value + Nat.ofDigits 16 (d :: digits).reverse := by
      rw [List.reverse_cons, Nat.ofDigits_append, List.length_reverse, Nat.ofDigits_singleton, List.length_cons]
      ring
    rw [digitsValue]
    constructor
    · intro h
      split at h
      · next d hd =>
        obtain ⟨hlt, rfl⟩ := hexDigitValue_iff.mp hd
        obtain ⟨digits, hdigits, rfl, rfl⟩ := ih.mp h
        exact ⟨d :: digits, List.forall_mem_cons.mpr ⟨hlt, hdigits⟩, rfl, hvalue d digits⟩
      · cases h
    · rintro ⟨digits, hdigits, htext, rfl⟩
      obtain ⟨d, digits, rfl, rfl, rfl⟩ := List.map_eq_cons_iff.mp htext.symm
      obtain ⟨hlt, hdigits⟩ := List.forall_mem_cons.mp hdigits
      rw [hexDigitValue_hexChar d hlt]
      exact ih.mpr ⟨digits, hdigits, rfl, (hvalue d digits).symm⟩

/-- A hexadecimal numeral in range is one to four digits: a longer one is refused for its leading zero, or its leading
digit makes it too large. -/
theorem hexNumeral_in_range_iff {text : List Char} {n : Nat} :
    hexNumeral text = some n ∧ n ≤ 65535 ↔
      ∃ digits : List Nat, 1 ≤ digits.length ∧ digits.length ≤ 4 ∧ (∀ d ∈ digits, d < 16) ∧
        text = digits.map hexChar ∧ n = Nat.ofDigits 16 digits.reverse := by
  constructor
  · rintro ⟨h, hrange⟩
    rw [hexNumeral] at h
    split at h
    · cases h
    · next hform =>
      obtain ⟨digits, hdigits, rfl, rfl⟩ := digitsValue_hex_iff.mp h
      rw [Nat.mul_zero, Nat.zero_add] at hrange ⊢
      simp only [Bool.or_eq_true, not_or, Bool.and_eq_true, not_and, List.isEmpty_iff, decide_eq_true_eq,
        List.map_eq_nil_iff, List.length_map, beq_iff_eq] at hform
      obtain ⟨hne, hleading⟩ := hform
      refine ⟨digits, List.length_pos_iff.mpr hne, ?_, hdigits, rfl, rfl⟩
      by_contra hlong
      obtain ⟨d, rest, rfl⟩ := List.exists_cons_of_ne_nil hne
      have hd : d ≠ 0 := by
        rintro rfl
        exact hleading (by omega) rfl
      rw [List.reverse_cons, Nat.ofDigits_append, List.length_reverse, Nat.ofDigits_singleton] at hrange
      rw [List.length_cons] at hlong
      have hpow : 16 ^ 4 ≤ 16 ^ rest.length := Nat.pow_le_pow_right (by omega) (by omega)
      have hlead : 16 ^ rest.length ≤ 16 ^ rest.length * d := Nat.le_mul_of_pos_right _ (Nat.pos_of_ne_zero hd)
      omega
  · rintro ⟨digits, hlow, hhigh, hdigits, rfl, rfl⟩
    have hne : digits ≠ [] := List.length_pos_iff.mp hlow
    constructor
    · rw [hexNumeral, if_neg (by simp [hne, hhigh])]
      exact digitsValue_hex_iff.mpr ⟨digits, hdigits, rfl, by rw [Nat.mul_zero, Nat.zero_add]⟩
    · have hlt : Nat.ofDigits 16 digits.reverse < 16 ^ digits.reverse.length :=
        Nat.ofDigits_lt_base_pow_length (by omega) fun d hd => hdigits d (List.mem_reverse.mp hd)
      rw [List.length_reverse] at hlt
      have hpow : 16 ^ digits.length ≤ 16 ^ 4 := Nat.pow_le_pow_right (by omega) hhigh
      omega

/-- The word of a HEX operand (R108). -/
theorem encodeHex_ok_iff {operand : List Char} {w : Word} :
    encodeHex operand = .ok w ↔ ∃ n, (hexNumeral operand = some n ∧ n ≤ 65535) ∧ w = BitVec.ofNat 16 n := by
  rw [encodeHex]
  cases hexNumeral operand with
  | none => exact ⟨nofun, fun ⟨_, ⟨hnone, _⟩, _⟩ => nomatch hnone⟩
  | some n =>
    constructor
    · intro h
      dsimp only at h
      split at h
      · next hrange =>
        cases h
        exact ⟨n, ⟨rfl, hrange⟩, rfl⟩
      · cases h
    · rintro ⟨m, ⟨hm, hrange⟩, rfl⟩
      cases hm
      exact if_pos hrange

/-! ### Decimal numerals -/

/-- A decimal digit is the library's digit of its value. -/
theorem digitChar_of_isDigit {c : Char} (h : c.isDigit = true) :
    c.toNat - '0'.toNat < 10 ∧ Nat.digitChar (c.toNat - '0'.toNat) = c := by
  have hzero : '0'.toNat = 48 := rfl
  have hnine : '9'.toNat = 57 := rfl
  obtain ⟨hlow, hhigh⟩ := Char.isDigit_iff_toNat.mp h
  refine ⟨by omega, Char.toNat_inj.mp ?_⟩
  rw [Nat.toNat_digitChar_of_lt_ten (by omega)]
  omega

/-- The value of decimal digits is the library's. -/
theorem digitsValue_decimal_iff {text : List Char} {value n : Nat} :
    digitsValue decimalDigitValue 10 text value = some n ↔
      (∀ c ∈ text, c.isDigit = true) ∧ n = Nat.ofDigitChars 10 text value := by
  induction text generalizing value with
  | nil => exact ⟨fun h => ⟨nofun, (Option.some.inj h).symm⟩, fun ⟨_, h⟩ => congrArg some h.symm⟩
  | cons c rest ih =>
    rw [digitsValue, decimalDigitValue, List.forall_mem_cons, Nat.ofDigitChars_cons, Nat.mul_comm 10 value]
    by_cases hc : c.isDigit = true
    · rw [if_pos hc]
      simp only [hc, true_and]
      exact ih
    · simp [hc]

/-- Digits after a positive value are the end of the decimal writing of what they make of it. -/
theorem toDigits_ofDigitChars {text : List Char} (h : ∀ c ∈ text, c.isDigit = true) {value : Nat} (hpos : 0 < value) :
    Nat.toDigits 10 (Nat.ofDigitChars 10 text value) = Nat.toDigits 10 value ++ text := by
  induction text generalizing value with
  | nil => rw [Nat.ofDigitChars_nil, List.append_nil]
  | cons c rest ih =>
    obtain ⟨hc, hrest⟩ := List.forall_mem_cons.mp h
    obtain ⟨hlt, hchar⟩ := digitChar_of_isDigit hc
    rw [Nat.ofDigitChars_cons, ih hrest (by omega), ← Nat.toDigits_append_toDigits (by omega) hpos hlt,
      Nat.toDigits_of_lt_base hlt, hchar, List.append_assoc]
    rfl

/-- The decimal writing of a positive number has no leading zero. -/
theorem head_toDigits_ne_zero {n : Nat} (hpos : 0 < n) : (Nat.toDigits 10 n).head? ≠ some '0' := by
  induction n using Nat.strongRecOn with
  | ind n ih =>
    by_cases hsmall : n < 10
    · rw [Nat.toDigits_of_lt_base hsmall]
      simpa using hpos.ne'
    · rw [Nat.toDigits_of_base_le (by omega) (by omega), List.head?_append_of_ne_nil _ Nat.toDigits_ne_nil]
      exact ih (n / 10) (by omega) (by omega)

/-- A decimal numeral is the library's decimal writing of its value. -/
theorem decimalNumeral_iff {text : List Char} {n : Nat} :
    decimalNumeral text = some n ↔ text = Nat.toDigits 10 n := by
  rw [decimalNumeral]
  constructor
  · intro h
    split at h
    · cases h
    · next hform =>
      obtain ⟨hdigits, rfl⟩ := digitsValue_decimal_iff.mp h
      simp only [Bool.or_eq_true, not_or, Bool.and_eq_true, not_and, List.isEmpty_iff, decide_eq_true_eq,
        beq_iff_eq] at hform
      obtain ⟨hne, hleading⟩ := hform
      obtain ⟨c, rest, rfl⟩ := List.exists_cons_of_ne_nil hne
      obtain ⟨hc, hrest⟩ := List.forall_mem_cons.mp hdigits
      obtain ⟨hlt, hchar⟩ := digitChar_of_isDigit hc
      rw [Nat.ofDigitChars_cons, Nat.mul_zero, Nat.zero_add]
      obtain rfl | hlong := eq_or_ne rest []
      · rw [Nat.ofDigitChars_nil, Nat.toDigits_of_lt_base hlt, hchar]
      · have hpos : 0 < c.toNat - '0'.toNat := by
          refine Nat.pos_of_ne_zero fun hzero => hleading ?_ ?_
          · simpa using List.length_pos_iff.mpr hlong
          · rw [hzero] at hchar
            rw [← hchar]
            rfl
        rw [toDigits_ofDigitChars hrest hpos, Nat.toDigits_of_lt_base hlt, hchar]
        rfl
  · rintro rfl
    have hform : ¬((Nat.toDigits 10 n).isEmpty ||
        (decide (1 < (Nat.toDigits 10 n).length) && (Nat.toDigits 10 n).head? == some '0')) = true := by
      simp only [Bool.or_eq_true, not_or, Bool.and_eq_true, not_and, List.isEmpty_iff, decide_eq_true_eq, beq_iff_eq]
      refine ⟨Nat.toDigits_ne_nil, fun hlong => head_toDigits_ne_zero (Nat.pos_of_ne_zero ?_)⟩
      rintro rfl
      simp at hlong
    rw [if_neg hform]
    exact digitsValue_decimal_iff.mpr
      ⟨fun c hc => Nat.isDigit_of_mem_toDigits (by omega) (by omega) hc, Nat.ofDigitChars_ten_toDigits.symm⟩

/-- The decimal writing of an integer: the digits of its absolute value, behind a minus if it is negative. -/
def decimalWriting (z : Int) : List Char := (if z < 0 then ['-'] else []) ++ Nat.toDigits 10 z.natAbs

/-- The decimal writing of a natural number does not begin with a minus. -/
theorem toDigits_ne_minus_cons (n : Nat) (rest : List Char) : Nat.toDigits 10 n ≠ '-' :: rest := fun h =>
  absurd (Nat.isDigit_of_mem_toDigits (b := 10) (n := n) (c := '-') (by omega) (by omega) (by simp [h])) (by decide)

theorem decimalWriting_neg {n : Nat} (hpos : 0 < n) : decimalWriting (-n) = '-' :: Nat.toDigits 10 n := by
  rw [decimalWriting, if_pos (by omega), Int.natAbs_neg, Int.natAbs_natCast]
  rfl

theorem decimalWriting_natCast (n : Nat) : decimalWriting n = Nat.toDigits 10 n := by
  rw [decimalWriting, if_neg (by omega), Int.natAbs_natCast]
  rfl

/-- A literal with a minus is the negative of a numeral other than 0 (R109, U10). -/
theorem decimalLiteral_minus_iff {digits : List Char} {z : Int} :
    decimalLiteral ('-' :: digits) = some z ↔ ∃ n : Nat, decimalNumeral digits = some n ∧ 0 < n ∧ z = -n := by
  rw [decimalLiteral]
  cases decimalNumeral digits with
  | none => simp
  | some n =>
    cases n with
    | zero => simp
    | succ n => simp [eq_comm]

/-- A literal without a minus is a numeral. -/
theorem decimalLiteral_plain_iff {text : List Char} (h : ∀ rest, text ≠ '-' :: rest) {z : Int} :
    decimalLiteral text = some z ↔ ∃ n : Nat, decimalNumeral text = some n ∧ z = n := by
  unfold decimalLiteral
  split
  · next rest => exact absurd rfl (h rest)
  · cases decimalNumeral text with
    | none => simp
    | some n => simp [eq_comm]

/-- A decimal literal is the decimal writing of its value. -/
theorem decimalLiteral_iff {text : List Char} {z : Int} :
    decimalLiteral text = some z ↔ text = decimalWriting z := by
  constructor
  · intro h
    by_cases hminus : ∃ rest, text = '-' :: rest
    · obtain ⟨rest, rfl⟩ := hminus
      obtain ⟨n, hn, hpos, rfl⟩ := decimalLiteral_minus_iff.mp h
      rw [decimalWriting_neg hpos, decimalNumeral_iff.mp hn]
    · obtain ⟨n, hn, rfl⟩ := (decimalLiteral_plain_iff (not_exists.mp hminus)).mp h
      rw [decimalWriting_natCast, decimalNumeral_iff.mp hn]
  · rintro rfl
    by_cases hneg : z < 0
    · obtain ⟨n, hpos, rfl⟩ : ∃ n : Nat, 0 < n ∧ z = -n := ⟨z.natAbs, by omega, by omega⟩
      rw [decimalWriting_neg hpos]
      exact decimalLiteral_minus_iff.mpr ⟨n, decimalNumeral_iff.mpr rfl, hpos, rfl⟩
    · obtain ⟨n, rfl⟩ : ∃ n : Nat, z = n := ⟨z.natAbs, by omega⟩
      rw [decimalWriting_natCast]
      exact (decimalLiteral_plain_iff (toDigits_ne_minus_cons n)).mpr ⟨n, decimalNumeral_iff.mpr rfl, rfl⟩

/-- The word of a DEC operand (R109). -/
theorem encodeDecimal_ok_iff {operand : List Char} {w : Word} :
    encodeDecimal operand = .ok w ↔
      ∃ z, decimalLiteral operand = some z ∧ (-32768 ≤ z ∧ z ≤ 32767) ∧ w = BitVec.ofInt 16 z := by
  rw [encodeDecimal]
  cases decimalLiteral operand with
  | none => simp
  | some z =>
    by_cases hrange : -32768 ≤ z ∧ z ≤ 32767
    · simp [hrange, eq_comm]
    · simp [hrange]

/-! ### The lines -/

/-- A HEX or DEC line emits a word exactly when its operand is instruction text that its directive accepts. -/
theorem encodeLine_ok_iff {table : List SymbolBinding} {word operand : List Char} {w : Word} (hword : WordText word) :
    encodeLine table (word ++ ' ' :: operand) = .ok w ↔
      operand.all instructionChar = true ∧ encodeOperand table word operand = .ok w := by
  rw [encodeLine_operand table hword]
  split
  · next hall => simp [hall]
  · next hall => simp [hall]

theorem instructionChar_of_isDigit {c : Char} (h : c.isDigit = true) : instructionChar c = true := by
  rw [instructionChar, h]
  rfl

/-- The decimal writing of an integer is instruction text. -/
theorem decimalWriting_instructionChar (z : Int) : (decimalWriting z).all instructionChar = true := by
  rw [decimalWriting, List.all_append, Bool.and_eq_true]
  refine ⟨by split <;> decide, List.all_eq_true.mpr fun c hc => ?_⟩
  exact instructionChar_of_isDigit (Nat.isDigit_of_mem_toDigits (by omega) (by omega) hc)

/-- Settles O51: the numerals the two directives accept are the library's digits, and digits are instruction text. -/
theorem literalsAssemble : Obligations.LiteralsAssemble := by
  refine ⟨fun table text w => ?hex, fun table text w => ?dec⟩
  case hex =>
    refine (encodeLine_ok_iff (word := ['H', 'E', 'X']) rfl).trans ⟨?_, ?_⟩
    · rintro ⟨-, h⟩
      obtain ⟨n, hn, rfl⟩ := encodeHex_ok_iff.mp h
      obtain ⟨digits, hlow, hhigh, hdigits, htext, rfl⟩ := hexNumeral_in_range_iff.mp hn
      exact ⟨digits, hlow, hhigh, hdigits, htext, rfl⟩
    · rintro ⟨digits, hlow, hhigh, hdigits, rfl, rfl⟩
      refine ⟨?_, encodeHex_ok_iff.mpr
        ⟨_, hexNumeral_in_range_iff.mpr ⟨digits, hlow, hhigh, hdigits, rfl, rfl⟩, rfl⟩⟩
      rw [List.all_map, List.all_eq_true]
      exact fun d hd => instructionChar_hexChar d (hdigits d hd)
  case dec =>
    refine (encodeLine_ok_iff (word := ['D', 'E', 'C']) rfl).trans ⟨?_, ?_⟩
    · rintro ⟨-, h⟩
      obtain ⟨z, hz, ⟨hlow, hhigh⟩, rfl⟩ := encodeDecimal_ok_iff.mp h
      exact ⟨z, hlow, hhigh, decimalLiteral_iff.mp hz, rfl⟩
    · rintro ⟨z, hlow, hhigh, rfl, rfl⟩
      exact ⟨decimalWriting_instructionChar z,
        encodeDecimal_ok_iff.mpr ⟨z, decimalLiteral_iff.mpr rfl, ⟨hlow, hhigh⟩, rfl⟩⟩

end Sys2Proof.Machine
end
